-- ==== Sys2Proof/Word.lean ====
section
/-! DEFINITION. The word types of the engine (spec/00_scope.md R6, R7): bytes of the streams and of `buffer`, 64-bit
data words, 32-bit command words. Everything is unsigned. -/

namespace Sys2Proof

/-- A byte of the input stream, the output stream or `buffer` (R7, R30). -/
abbrev Byte := BitVec 8

/-- A 64-bit data word, bit 0 the least significant (R6, R7). -/
abbrev Word := BitVec 64

/-- A 32-bit command word, taken as a value, never as bytes (R51; the byte order of its transport is the open
parameter `CMD_WORD_BYTE_ORDER`, log entry 9). -/
abbrev CommandWord := BitVec 32

end Sys2Proof
end

