-- ==== Sys2Proof/Config.lean ====
section
/-! DEFINITION. The parameters of the engine (spec/00_scope.md section 4). The sizes are fixed by the document (R6).
Of the parameters the spec leaves open only `BACKEND` appears here: `LATENCY`, `PAYLOAD_BUS_WIDTH`, `PAYLOAD_LANE_ORDER`
and `CMD_WORD_BYTE_ORDER` have no value any rule reads (log entries 9, 15), and `NUM_CONTEXTS` is the length of a list in
Machine/Contexts.lean. The constant tables stand in Machine/Tables.lean. -/

namespace Sys2Proof.Config

/-- Bytes of a message block and of the staging buffer, `BB` (R6). -/
abbrev blockBytes : Nat := 128

/-- Rounds of one compression, `NR` (R6, R101). -/
abbrev rounds : Nat := 12

/-- Least digest length in bytes, `OUTMIN` (R6). -/
abbrev outMin : Nat := 1

/-- Greatest digest length in bytes, `OUTMAX` (R6). -/
abbrev outMax : Nat := 64

/-- Greatest key length in bytes, `KEYMAX` (R6). -/
abbrev keyMax : Nat := 64

/-- Greatest payload of one UPDATE in bytes, `LENMAX` (R54). -/
abbrev lenMax : Nat := 2 ^ 24 - 1

/-- The absorbed bytes of one computation stay below this bound: a computation that reaches it is outside the
contract (R74, 92_eei_decisions.md D14, 93_implementation_defined.md U1; log entry 11). -/
abbrev absorbedBound : Nat := 2 ^ 128

/-- The parameter `BACKEND`: which implementation of the Compression Core runs (R92, R93). No rule reads it. The
document names the variants "Scalar, VectorA, VectorB, …" and describes only what tells a vector variant apart: it
evaluates the four independent calls of a step side by side. So the model has one constructor for all of them (DEDUCED,
log entry 8). -/
inductive Backend where
  /-- The portable scalar core: the eight calls of a round one after another. -/
  | scalar
  /-- Any vectorised core: the four calls of a step side by side. -/
  | vector
  deriving DecidableEq, Repr

end Sys2Proof.Config
end

