-- ==== Sys2Proof/Machine/Flags.lean ====
section
/-! DEFINITION. The engine has no status flags, no condition codes and no overflow flag (spec/10_state.md R19). What it has
of one bit are two quantities that live inside one operation: the carry of the byte counter (R74), and the final-block
flag `f` that COMPRESS takes as an input (R86). Both are computed here. -/

namespace Sys2Proof.Machine

/-- The carry of ADDCTR out of the low counter word: `carry <- 1 if t0' < n else 0`, where `t0'` is the sum and `n` the
addend (R74). -/
def counterCarry (sum : Word) (n : Nat) : Word := if sum.toNat < n then 1 else 0

/-- What the final-block flag XORs into `v[14]`: all ones for the last block of a computation, nothing otherwise (R86). -/
def finalMask (f : Bool) : Word := if f then 0xFFFFFFFFFFFFFFFF#64 else 0

end Sys2Proof.Machine
end

