-- ==== Sys2Proof/Machine/State.lean ====
section
/-! DEFINITION. The state of the machine: the HashState of the one context (spec/10_state.md R10) and the three channels
by which the host drives it (spec/30_encoding.md R50, spec/20_memory.md R30). Plain data throughout. -/

namespace Sys2Proof.Machine

/-- Where the context stands in its lifecycle (R16). -/
inductive Phase where
  /-- Between reset and the first accepted INIT. -/
  | idle
  /-- A computation is running: the document's `finalized == false`. -/
  | active
  /-- The digest has been returned: the document's `finalized == true`. -/
  | done
  deriving DecidableEq, Repr

/-- How a command ended (R115). The codes are `Status.code` in Machine/Ops.lean. -/
inductive Status where
  /-- No check failed. -/
  | ok
  /-- Raised by INIT: digest length or key length out of bounds (R116). -/
  | invalidParameter
  /-- Raised by UPDATE and FINALIZE outside phase ACTIVE (R117). -/
  | invalidState
  /-- Raised by the decoder: the command word is none of the three commands (R118). -/
  | illegalCommand
  deriving DecidableEq, Repr

/-- The response that ends a transaction: the status, and the digest bytes, byte 0 first, which only an accepted
FINALIZE sends (R60). -/
structure Response where
  status : Status
  digest : List Byte
  deriving DecidableEq, Repr

/-- `buffer`, the engine's only memory: offsets 0 to 127, a byte each (R13, R30). Held as a list of (offset, byte) pairs in
one canonical form, `Memory.wf` of Machine/Ops.lean: offsets strictly rising, none above 127, no entry equal to 0x00, which
is what an unlisted offset reads as (log entry 2). -/
abbrev Memory := List Host.Cell

/-- The whole architectural state of one context (R10). `v` and `m`, the working registers of the Compression Core, are
locals of COMPRESS and no state (R17, 92_eei_decisions.md D23; log entry 7). The two small fields hold legal values only (DEDUCED,
log entry 17). -/
structure HashState where
  /-- The chain value `h[0..7]` (R11). -/
  h : Vector Word 8
  /-- Low word of the byte counter (R12). -/
  t0 : Word
  /-- High word of the byte counter (R12). -/
  t1 : Word
  /-- The 128-byte staging area (R13). -/
  buffer : Memory
  /-- Occupancy of `buffer`: 8 bits, values 0 to 128 (R14). -/
  buflen : Fin 129
  /-- Digest length in bytes: 7 bits, values 1 to 64 once INIT has written it (R15). -/
  outlen : Fin 65
  /-- Lifecycle position (R16). -/
  phase : Phase
  deriving DecidableEq, Repr

/-- The machine: the context, and what stands on its channels. The channels are the host's side of the transactions
(R50, 92_eei_decisions.md D1: "command word, payload bytes in, response bytes out"). DESIGN CHOICE: they are queues, and the
last keeps every response (log entries 5, 6). -/
structure State where
  /-- The context. -/
  hash : HashState
  /-- Command words the host has issued and the engine has not answered, oldest first (R50). -/
  commandIn : List CommandWord
  /-- The input stream: payload bytes not yet consumed, byte 0 first (R30, R37). -/
  payloadIn : List Byte
  /-- The responses so far, oldest first: the output stream (R30, R60). -/
  responseOut : List Response
  deriving DecidableEq, Repr

/-- The engine has no fault: every command ends in a response, and "No error is transient" (R119, R121). The errors of the
spec are responses, hence next states. So no constructor. -/
inductive Fault where
  deriving DecidableEq, Repr

/-- Why the model gives a step no next state. -/
inductive Refusal where
  /-- Raised by an arm of `exec` whose instruction has no meaning yet. Safe: nothing is claimed of it. No arm raises it. -/
  | notModelled (mnemonic : String)
  /-- Raised by UPDATE and by FINALIZE in phase ACTIVE when the computation would have absorbed 2^128 bytes or more: "a
  model should refuse it" (R74, 92_eei_decisions.md D14, 93_implementation_defined.md U1). Safe: outside the contract the
  model claims nothing (log entry 11). -/
  | absorbedTooLong
  deriving DecidableEq, Repr

/-- The context right after reset: `phase` is IDLE (R26, R135). The spec leaves every other component unspecified (R27);
DESIGN CHOICE (log entry 1, unsafe): each holds zero. No response depends on them, which
`Obligations.UnspecifiedRegistersNeverShow` states. -/
def HashState.reset : HashState where
  h := Vector.replicate 8 0
  t0 := 0
  t1 := 0
  buffer := []
  buflen := 0
  outlen := 0
  phase := .idle

/-- The machine right after reset: the context after reset, and nothing on the channels (DESIGN CHOICE, log
entry 3). -/
def State.reset : State where
  hash := HashState.reset
  commandIn := []
  payloadIn := []
  responseOut := []

end Sys2Proof.Machine
end

