-- ==== Sys2Proof/Machine/Ops.lean ====
section
/-! DEFINITION. The named operations over `buffer`, the byte/word boundary, the byte counter and the channels
(spec/20_memory.md R30 to R39, spec/40_lifecycle_commands.md R74, spec/30_encoding.md R60, R61), and the rejection of a
command, which is all this engine has of taking an exception (spec/60_exceptions.md R124). -/

namespace Sys2Proof.Machine

/-! ### `buffer` -/

/-- What an unlisted offset of `buffer` reads as. INIT zeroes all 128 bytes (R13), so a cleared `buffer` lists nothing. -/
abbrev unlistedByte : Byte := 0x00#8

/-- The canonical form of `buffer`: offsets strictly rising, all in 0 to 127 (R31), no entry equal to `unlistedByte`. -/
abbrev Memory.wf (m : Memory) : Prop :=
  m.Pairwise (fun c d => c.1 < d.1) ∧ ∀ c ∈ m, c.1 < Config.blockBytes ∧ c.2 ≠ unlistedByte

/-- `buffer[a]` (R30). Reading changes nothing (R39). -/
def readByte : Memory → Nat → Byte
  | [], _ => unlistedByte
  | (k, x) :: rest, a => if k = a then x else readByte rest a

/-- `buffer[a] <- b` (R30), keeping the canonical form. -/
def writeByte : Memory → Nat → Byte → Memory
  | [], a, b => if b = unlistedByte then [] else [(a, b)]
  | (k, x) :: rest, a, b =>
    if k < a then (k, x) :: writeByte rest a b
    else
      let above := if k = a then rest else (k, x) :: rest
      if b = unlistedByte then above else (a, b) :: above

/-- Write a sequence of bytes at rising offsets from `a` on. -/
def writeBytes : Memory → Nat → List Byte → Memory
  | m, _, [] => m
  | m, a, b :: rest => writeBytes (writeByte m a b) (a + 1) rest

/-- All 128 bytes zero (R67: `buffer[i] <- 0x00 for i = 0..127`). -/
def clearedBuffer : Memory := []

/-! ### Bytes and words (R32: little-endian, not switchable) -/

/-- A block of exactly 128 bytes, the input `B` of COMPRESS (R85). -/
abbrev Block := Vector Byte 128

/-- LOAD64LE: byte 0 is the least significant byte of the word (R33). -/
def load64le (s : Vector Byte 8) : Word :=
  BitVec.ofNat 64 (s[0].toNat + s[1].toNat * 2 ^ 8 + s[2].toNat * 2 ^ 16 + s[3].toNat * 2 ^ 24 +
    s[4].toNat * 2 ^ 32 + s[5].toNat * 2 ^ 40 + s[6].toNat * 2 ^ 48 + s[7].toNat * 2 ^ 56)

/-- STORE64LE: `s[k] = w[8k+7 : 8k]`, the least significant byte first (R34). -/
def store64le (w : Word) : Vector Byte 8 := Vector.ofFn fun k => w.extractLsb' (8 * k.val) 8

/-- `MemRead(a, n)`: `n` bytes of `buffer` from offset `a` on as one unsigned number, byte `a` least significant (R8, R33). -/
def memRead (m : Memory) : Nat → Nat → Nat
  | _, 0 => 0
  | a, n + 1 => (readByte m a).toNat + 256 * memRead m (a + 1) n

/-- `MemWrite(a, n, x)`, the inverse of `MemRead`: byte `a + k` gets bits `8k+7 : 8k` of `x` (R8, R34). "Defined for
completeness": no command uses it. -/
def memWrite (m : Memory) (a n x : Nat) : Memory :=
  writeBytes m a ((List.range n).map fun k => BitVec.ofNat 8 (x / 2 ^ (8 * k)))

/-- `buffer[0..127]` as a block, the `B` that ABSORB and FINALIZE hand to COMPRESS (R73, R75). -/
def blockOf (m : Memory) : Block := Vector.ofFn fun i => readByte m i.val

/-- Block parse: `m[i] <- LOAD64LE(B[8i .. 8i+7])` for `i = 0..15` (R35, R87). -/
def messageWords (b : Block) : Vector Word 16 :=
  Vector.ofFn fun i => load64le (Vector.ofFn fun k => b[8 * i.val + k.val])

/-- The 64-byte sequence `STORE64LE(h[0]) ++ ... ++ STORE64LE(h[7])` (R36). -/
def serialiseChain (h : Vector Word 8) : List Byte := h.toList.flatMap fun w => (store64le w).toList

/-- DIGEST `(h, n)`: the first `n` bytes of the serialised chain value (R36). -/
def digestOf (h : Vector Word 8) (n : Nat) : List Byte := (serialiseChain h).take n

/-! ### The byte counter -/

/-- The counter value `t = t1 * 2^64 + t0` (R12). -/
def counterValue (t1 t0 : Word) : Nat := t1.toNat * 2 ^ 64 + t0.toNat

/-- ADDCTR `(t1, t0, n)`, returning `(t1', t0')` (R74). -/
def addCounter (t1 t0 : Word) (n : Nat) : Word × Word :=
  let low := t0 + BitVec.ofNat 64 n
  (t1 + counterCarry low n, low)

/-- Advance the counter of a context by `n` bytes (R73, R75). -/
def HashState.advance (hs : HashState) (n : Nat) : HashState :=
  { hs with t1 := (addCounter hs.t1 hs.t0 n).1, t0 := (addCounter hs.t1 hs.t0 n).2 }

/-- The counter value `t` of a context (R12). -/
def HashState.count (hs : HashState) : Nat := counterValue hs.t1 hs.t0

/-- `t + buflen`: the bytes the running computation has absorbed, the key block included (R23 (iii)). -/
def HashState.absorbed (hs : HashState) : Nat := hs.count + hs.buflen.val

/-- The offset at which the next ABSORB stores its byte: `buflen`, or 0 when the buffer is full and is emptied first
(R31, R73). -/
def storeOffset (buflen : Fin 129) : Nat := buflen.val % Config.blockBytes

/-! ### The channels -/

/-- Take a payload of `n` bytes from the input stream, each byte exactly once and in order (R30, R37, R57); nothing while
fewer than `n` bytes have arrived. -/
def takePayload (n : Nat) (s : State) : Option (List Byte × State) :=
  if n ≤ s.payloadIn.length then
    some (s.payloadIn.take n, { s with payloadIn := s.payloadIn.drop n })
  else none

/-- The numeric status codes (R61). -/
def Status.code : Status → Byte
  | .ok => 0x00#8
  | .invalidParameter => 0x01#8
  | .invalidState => 0x02#8
  | .illegalCommand => 0x03#8

/-- The bytes of a response on the output stream: the status byte, then the digest bytes (R60). -/
def Response.bytes (r : Response) : List Byte := r.status.code :: r.digest

/-- End the transaction: the command word leaves the channel and one response goes out (R50, R60). -/
def respond (status : Status) (digest : List Byte) (s : State) : State :=
  { s with commandIn := s.commandIn.tail, responseOut := s.responseOut ++ [⟨status, digest⟩] }

/-- Reject the command: the one way this engine takes an exception. It saves nothing, changes no component of the context,
transfers control nowhere; it sends the status, without digest bytes, and waits for the next command word (R120, R124).
There is no return to model: "There is no return instruction because nothing was entered" (R125). -/
def reject (status : Status) (s : State) : State := respond status [] s

end Sys2Proof.Machine
end

