-- ==== Sys2Proof/Machine/Mixing.lean ====
section
/-! DEFINITION. The three primitives ADD64, XOR64, ROTR64 and the mixing function G (spec/43_mixing_function.md R105 to
R108). All are total and raise nothing (R121). The order of the operations and the direction of the rotations are PRESUMED by
the spec (K3, log entry 13). -/

namespace Sys2Proof.Machine

/-- ADD64: the sum modulo 2^64, the carry discarded (R105). -/
def add64 (p q : Word) : Word := p + q

/-- XOR64 (R106). -/
def xor64 (p q : Word) : Word := p ^^^ q

/-- ROTR64: rotation to the right by `n` bits (R107). Only the amounts 32, 24, 16 and 63 occur. -/
def rotr64 (p : Word) (n : Nat) : Word := (p >>> n) ||| (p <<< (64 - n))

/-- The four words a G call reads and writes back. -/
structure Quad where
  a : Word
  b : Word
  c : Word
  d : Word
  deriving DecidableEq, Repr

/-- Four of the eight lines of G, with the message word and the two rotation amounts of that half; every line uses the
values the lines before it have written (R108). -/
def mixHalf (q : Quad) (x : Word) (r₁ r₂ : Nat) : Quad :=
  let a := add64 (add64 q.a q.b) x
  let d := rotr64 (xor64 q.d a) r₁
  let c := add64 q.c d
  let b := rotr64 (xor64 q.b c) r₂
  ⟨a, b, c, d⟩

/-- G: the first half adds `x` and rotates by 32 and 24, the second adds `y` and rotates by 16 and 63 (R108). -/
def mixG (q : Quad) (x y : Word) : Quad := mixHalf (mixHalf q x 32 24) y 16 63

end Sys2Proof.Machine
end

