-- ==== Sys2Proof/Machine/Tables.lean ====
section
/-! DEFINITION. The constant tables of the engine: IV, SIGMA and the schedule of the eight G calls (spec/10_state.md R20,
spec/42_permutation_rounds.md R95, R96, R98). They are never written and are the same in every context. The spec supplies
their values from general knowledge (93_implementation_defined.md K1, K2, K4) and this model takes them from the spec (PRESUMED, log
entry 13). -/

namespace Sys2Proof.Machine

/-- `IV[0..7]` (R95). -/
def iv : Vector Word 8 :=
  #v[0x6a09e667f3bcc908#64, 0xbb67ae8584caa73b#64, 0x3c6ef372fe94f82b#64, 0xa54ff53a5f1d36f1#64,
     0x510e527fade682d1#64, 0x9b05688c2b3e6c1f#64, 0x1f83d9abfb41bd6b#64, 0x5be0cd19137e2179#64]

/-- `SIGMA[0..9][0..15]`, the message schedule (R96). -/
def sigma : Vector (Vector (Fin 16) 16) 10 :=
  #v[#v[ 0,  1,  2,  3,  4,  5,  6,  7,  8,  9, 10, 11, 12, 13, 14, 15],
     #v[14, 10,  4,  8,  9, 15, 13,  6,  1, 12,  0,  2, 11,  7,  5,  3],
     #v[11,  8, 12,  0,  5,  2, 15, 13, 10, 14,  3,  6,  7,  1,  9,  4],
     #v[ 7,  9,  3,  1, 13, 12, 11, 14,  2,  6,  5, 10,  4,  0, 15,  8],
     #v[ 9,  0,  5,  7,  2,  4, 10, 15, 14,  1, 11, 12,  6,  8,  3, 13],
     #v[ 2, 12,  6, 10,  0, 11,  8,  3,  4, 13,  7,  5, 15, 14,  1,  9],
     #v[12,  5,  1, 15, 14, 13,  4, 10,  0,  7,  6,  3,  9,  2,  8, 11],
     #v[13, 11,  7, 14, 12,  1,  3,  9,  5,  0, 15,  4,  8,  6,  2, 10],
     #v[ 6, 15, 14,  9, 11,  3,  0,  8, 12,  2, 13,  7,  1,  4, 10,  5],
     #v[10,  2,  8,  4,  7,  6,  1,  5, 15, 11,  9, 14,  3, 12, 13,  0]]

/-- The row of round `r`: `SIGMA[r mod 10]` (R97). -/
def sigmaRow (r : Nat) : Vector (Fin 16) 16 := sigma[r % 10]

/-- The four words of `v` a G call mixes, in the roles `a, b, c, d` (R98). -/
structure GCall where
  a : Fin 16
  b : Fin 16
  c : Fin 16
  d : Fin 16
  deriving DecidableEq, Repr

/-- The schedule of a round: calls 0 to 3 mix the columns, calls 4 to 7 the diagonals (R98). -/
def callSchedule : Vector GCall 8 :=
  #v[⟨0, 4, 8, 12⟩, ⟨1, 5, 9, 13⟩, ⟨2, 6, 10, 14⟩, ⟨3, 7, 11, 15⟩,
     ⟨0, 5, 10, 15⟩, ⟨1, 6, 11, 12⟩, ⟨2, 7, 8, 13⟩, ⟨3, 4, 9, 14⟩]

/-- The calls of the column step, in order (R98). -/
def columnCalls : List (Fin 8) := [0, 1, 2, 3]

/-- The calls of the diagonal step, in order (R98). -/
def diagonalCalls : List (Fin 8) := [4, 5, 6, 7]

end Sys2Proof.Machine
end

