-- ==== Sys2Proof/Machine/Rounds.lean ====
section
/-! DEFINITION. ROUND, the eight G calls of one round on the working vector (spec/42_permutation_rounds.md R98 to R101). -/

namespace Sys2Proof.Machine

/-- The working vector `v[0..15]` (R17). -/
abbrev WorkVector := Vector Word 16

/-- The message words `m[0..15]` (R17). -/
abbrev MessageWords := Vector Word 16

/-- Read the four words of a call. -/
def readQuad (c : GCall) (v : WorkVector) : Quad := ⟨v[c.a], v[c.b], v[c.c], v[c.d]⟩

/-- Write the four words of a call back to the registers they came from (R100, R108). -/
def writeQuad (c : GCall) (q : Quad) (v : WorkVector) : WorkVector :=
  (((v.set c.a q.a).set c.b q.b).set c.c q.c).set c.d q.d

/-- What call `j` computes in a round with sigma row `s`: G of its four words with `x = m[s[2j]]`, `y = m[s[2j+1]]`
(R99, R100). -/
def callResult (m : MessageWords) (s : Vector (Fin 16) 16) (j : Fin 8) (v : WorkVector) : Quad :=
  mixG (readQuad callSchedule[j] v) m[s[2 * j.val]] m[s[2 * j.val + 1]]

/-- One call of a round: read, mix, write back (R100). -/
def applyCall (m : MessageWords) (s : Vector (Fin 16) 16) (v : WorkVector) (j : Fin 8) : WorkVector :=
  writeQuad callSchedule[j] (callResult m s j v) v

/-- A sequence of calls, one after another. -/
def applyCalls (m : MessageWords) (s : Vector (Fin 16) 16) (js : List (Fin 8)) (v : WorkVector) : WorkVector :=
  js.foldl (applyCall m s) v

/-- ROUND `(r)`: the calls 0 to 7 in order, with row `SIGMA[r mod 10]` (R100). -/
def applyRound (m : MessageWords) (r : Nat) (v : WorkVector) : WorkVector :=
  applyCalls m (sigmaRow r) (columnCalls ++ diagonalCalls) v

end Sys2Proof.Machine
end

