-- ==== Sys2Proof/Machine/Compression.lean ====
section
/-! DEFINITION. The Compression Core: COMPRESS in its four steps (spec/41_compression_core.md R85 to R90). Total, pure, no
error outcome (R85). -/

namespace Sys2Proof.Machine

/-- The chain value `h[0..7]` (R11). -/
abbrev Chain := Vector Word 8

/-- Step 1, the working vector: the chain value, then IV, with `t0` XORed into `v[12]`, `t1` into `v[13]`, and for a final
block all ones into `v[14]`; `v[15]` is never tweaked (R86). -/
def workVector (h : Chain) (t0 t1 : Word) (f : Bool) : WorkVector :=
  let v : WorkVector := h ++ iv
  ((v.set 12 (xor64 v[12] t0)).set 13 (xor64 v[13] t1)).set 14 (xor64 v[14] (finalMask f))

/-- Step 4, the feed-forward: `h'[i] = h[i] xor v[i] xor v[i+8]` (R89). -/
def feedForward (h : Chain) (v : WorkVector) : Chain :=
  Vector.ofFn fun i => xor64 (xor64 h[i] v[i.val]) v[i.val + 8]

/-- The rounds `0, 1, ..., 11` in that order, over a given implementation of one round (R88, R101). -/
def runRounds (round : MessageWords → Nat → WorkVector → WorkVector) (m : MessageWords) (v : WorkVector) : WorkVector :=
  (List.range Config.rounds).foldl (fun v r => round m r v) v

/-- The four steps of COMPRESS over a given implementation of one round (R86 to R89). -/
def compressWith (round : MessageWords → Nat → WorkVector → WorkVector) (h : Chain) (b : Block) (t0 t1 : Word)
    (f : Bool) : Chain :=
  feedForward h (runRounds round (messageWords b) (workVector h t0 t1 f))

/-- COMPRESS `(h, B, t0, t1, f)` (R90). -/
def compress (h : Chain) (b : Block) (t0 t1 : Word) (f : Bool) : Chain := compressWith applyRound h b t0 t1 f

end Sys2Proof.Machine
end

