-- ==== Sys2Proof/Syntax.lean ====
section
/-! DEFINITION. The commands of the engine, one constructor per row of spec/opcode_table.json (R50, R53, R54, R55). -/

namespace Sys2Proof

/-- A command with the operands its word carries. The key and the message bytes are no operands of the word: they are
the payload, which the engine takes from its input stream (R56, R57). The operands are counts of bytes, so they are
natural numbers, and `Instr.wellFormed` says which fit their fields. -/
inductive Instr where
  /-- INIT `nn, kk`: start a computation with digest length `nn` and a key of `kk` bytes (R53, R67). -/
  | init (nn kk : Nat)
  /-- UPDATE `len`: absorb `len` payload bytes (R54, R72). -/
  | update (len : Nat)
  /-- FINALIZE: compress the last block and return the digest (R55, R75). -/
  | finalize
  deriving DecidableEq, Repr

end Sys2Proof
end

