-- ==== Sys2Proof/WellFormed.lean ====
section
/-! DEFINITION. Which commands have a command word: every operand fits its field (spec/30_encoding.md R56). Values
that fit and are out of range for INIT (`nn = 0`, `nn = 65`, `kk = 65`, …) ARE well formed: they decode, and INIT itself
rejects them (R56, R68). -/

namespace Sys2Proof

/-- Every operand fits its field: `nn` and `kk` in 8 bits, `len` in 24 (R56). -/
def Instr.wellFormed : Instr → Bool
  | .init nn kk => decide (nn < 2 ^ 8) && decide (kk < 2 ^ 8)
  | .update len => decide (len < 2 ^ 24)
  | .finalize => true

end Sys2Proof
end

