-- ==== Sys2Proof/Decode.lean ====
section
/-! DEFINITION. The decoder and the encoder of command words (spec/30_encoding.md R51 to R58), and the opcode table they
are written from. The encoding is the spec's own decision (D3 to D7, log entry 14). -/

namespace Sys2Proof

/-- A row of the opcode table: the words `w` with `w and mask = pattern` (R53 to R55). -/
structure OpcodeRow where
  mnemonic : String
  mask : CommandWord
  pattern : CommandWord
  deriving DecidableEq, Repr

/-- Why a command word is none of the three commands (R58). The engine answers each with IllegalCommand. -/
inductive DecodeError where
  /-- Opcode 0x00 or 0x04 to 0xFF. -/
  | unknownOpcode
  /-- Opcode 0x01 with `w[7:0]` not zero. -/
  | initFieldNotZero
  /-- Opcode 0x03 with `w[23:0]` not zero. -/
  | finalizeFieldNotZero
  deriving DecidableEq, Repr

/-- INIT is selected by `w and 0xFF0000FF = 0x01000000` (R53). -/
def initRow : OpcodeRow := ⟨"INIT", 0xFF0000FF#32, 0x01000000#32⟩

/-- UPDATE is selected by `w and 0xFF000000 = 0x02000000` (R54). -/
def updateRow : OpcodeRow := ⟨"UPDATE", 0xFF000000#32, 0x02000000#32⟩

/-- FINALIZE is selected by `w = 0x03000000`, mask `0xFFFFFFFF` (R55). -/
def finalizeRow : OpcodeRow := ⟨"FINALIZE", 0xFFFFFFFF#32, 0x03000000#32⟩

/-- The whole opcode table (R50: "there are no other commands"). -/
def opcodeTable : List OpcodeRow := [initRow, updateRow, finalizeRow]

/-- The word is one of the row's. -/
def OpcodeRow.selects (r : OpcodeRow) (w : CommandWord) : Bool := w &&& r.mask == r.pattern

/-- The row an instruction is encoded by. -/
def Instr.row : Instr → OpcodeRow
  | .init _ _ => initRow
  | .update _ => updateRow
  | .finalize => finalizeRow

/-- The field `w[hi:lo]` as an unsigned number (R7, R56). -/
def wordField (w : CommandWord) (hi lo : Nat) : Nat := (w.extractLsb hi lo).toNat

/-- The decoder: total on every 32-bit word, by the three rows and nothing else; every other word is rejected by the
name of what is wrong with it (R53 to R58). -/
def decode (w : CommandWord) : Except DecodeError Instr :=
  if initRow.selects w then .ok (.init (wordField w 23 16) (wordField w 15 8))
  else if updateRow.selects w then .ok (.update (wordField w 23 0))
  else if finalizeRow.selects w then .ok .finalize
  else if wordField w 31 24 = 0x01 then .error .initFieldNotZero
  else if wordField w 31 24 = 0x03 then .error .finalizeFieldNotZero
  else .error .unknownOpcode

/-- The encoder: the command word of a well-formed command, by the formats I, U and F (R52). -/
def encode : Instr → CommandWord
  | .init nn kk => 0x01000000#32 ||| (BitVec.ofNat 32 nn <<< 16) ||| (BitVec.ofNat 32 kk <<< 8)
  | .update len => 0x02000000#32 ||| BitVec.ofNat 32 len
  | .finalize => 0x03000000#32

/-- What the decoder reads from an instruction numbered as spec/opcode_table.json numbers it. Every command is one
32-bit word (R51), so the bits of the table's number are the word's own; a number that does not fit it, or that has a bit
above `nbits`, is no command word. -/
def decodeTableWord (nbits w : Nat) : Option Instr :=
  if w < 2 ^ nbits ∧ w < 2 ^ 32 then (decode (BitVec.ofNat 32 w)).toOption else none

end Sys2Proof
end

