-- ==== Sys2Proof/Machine/Operands.lean ====
section
/-! DEFINITION. The operands of the commands: the payload length a word declares (spec/30_encoding.md R57), the range check
of INIT (spec/40_lifecycle_commands.md R68), the parameter block (R69) and the key block (R71). -/

namespace Sys2Proof.Machine

/-- The payload bytes a command declares: `kk` for INIT, `len` for UPDATE, none for FINALIZE (R57). -/
def payloadLength : Instr → Nat
  | .init _ kk => kk
  | .update len => len
  | .finalize => 0

/-- `PAYLEN(w)`: depends on the command word alone, and is 0 for an illegal word (R57, R58). -/
def payLen (w : CommandWord) : Nat :=
  match decode w with
  | .ok i => payloadLength i
  | .error _ => 0

/-- INIT accepts exactly `1 <= nn <= 64` and `kk <= 64` (R68). -/
def validInit (nn kk : Nat) : Bool :=
  decide (Config.outMin ≤ nn) && decide (nn ≤ Config.outMax) && decide (kk ≤ Config.keyMax)

/-- The 64-byte parameter block `P` (R69): digest length, key length, fanout 1, depth 1 in bytes 0 to 3; then leaf length
(4 bytes), node offset (8), node depth, inner length, reserved (14), salt (16) and personalisation (16), all zero.
PRESUMED by the spec (K5, log entry 13). -/
def parameterBlock (nn kk : Nat) : Vector Byte 64 :=
  Vector.ofFn fun i => [BitVec.ofNat 8 nn, BitVec.ofNat 8 kk, 0x01#8, 0x01#8].getD i.val 0x00#8

/-- The initial chain value `h[i] = IV[i] xor LOAD64LE(P[8i .. 8i+7])` (R69). -/
def initialChain (nn kk : Nat) : Vector Word 8 :=
  Vector.ofFn fun i => iv[i] ^^^ load64le (Vector.ofFn fun k => (parameterBlock nn kk)[8 * i.val + k.val])

/-- The key block `key ++ zeros(128 - kk)` (R71). -/
def keyBlock (key : List Byte) : List Byte := key ++ List.replicate (Config.blockBytes - key.length) 0x00#8

end Sys2Proof.Machine
end

