-- ==== Sys2Proof/Machine/Lifecycle.lean ====
section
/-! DEFINITION. What the commands do to the HashState: the fresh state of INIT, ABSORB, and the last block of FINALIZE
(spec/40_lifecycle_commands.md R67 to R78). -/

namespace Sys2Proof.Machine

/-- The HashState after an accepted INIT (R67, R70). It is built from the operands alone: "Nothing of the previous
computation survives". With a key of 1 to 64 bytes the zero-padded key is held as a full, uncompressed buffer (R71). -/
def startHash (nn kk : Nat) (key : List Byte) : HashState where
  h := initialChain nn kk
  t0 := 0
  t1 := 0
  buffer := if 0 < kk then writeBytes clearedBuffer 0 key else clearedBuffer
  buflen := if 0 < kk then 128 else 0
  outlen := Fin.ofNat 65 nn
  phase := .active

/-- Compress the buffer into the chain value, with the counter as it stands (R73, R75, R94). A compression does not change
`buffer` (R13). -/
def HashState.compressBuffer (hs : HashState) (f : Bool) : HashState :=
  { hs with h := compress hs.h (blockOf hs.buffer) hs.t0 hs.t1 f }

/-- The first part of ABSORB: a full buffer is compressed as a non-final block, the counter advanced by 128 before it, and
then counts as empty (R73). -/
def HashState.makeRoom (hs : HashState) : HashState :=
  if hs.buflen.val = Config.blockBytes then
    { (hs.advance Config.blockBytes).compressBuffer false with buflen := 0 }
  else hs

/-- ABSORB `b`: the test for a full buffer comes BEFORE the byte is stored (R73). -/
def absorb (hs : HashState) (b : Byte) : HashState :=
  { hs.makeRoom with
    buffer := writeByte hs.makeRoom.buffer (storeOffset hs.buflen) b
    buflen := Fin.ofNat 129 (storeOffset hs.buflen + 1) }

/-- The ABSORB steps of one UPDATE, in payload order (R72). -/
def absorbAll (hs : HashState) (data : List Byte) : HashState := data.foldl absorb hs

/-- The padding of the last block: `buffer[i] <- 0x00 for i = buflen .. 127` (R76). -/
def HashState.pad (hs : HashState) : HashState :=
  { hs with buffer := writeBytes hs.buffer hs.buflen.val (List.replicate (Config.blockBytes - hs.buflen.val) 0x00#8) }

/-- The effect of FINALIZE on the HashState: advance the counter by `buflen` (padding is not counted), pad, compress as the
final block, enter DONE (R75, R78). -/
def HashState.finish (hs : HashState) : HashState :=
  { ((hs.advance hs.buflen.val).pad).compressBuffer true with phase := .done }

end Sys2Proof.Machine
end

