-- ==== Sys2Proof/Machine/Commands.lean ====
section
/-! DEFINITION. The meanings of the three commands, each one atomic transition (spec/40_lifecycle_commands.md R66 to R79,
spec/70_reset_and_hazards.md R140). The order of work is that of R66: the payload is taken and held, then the one check, then
the effect, then the response. While the payload is not all there the transaction has not been delivered: the machine holds
its state, the command word still on its channel (log entry 4). -/

namespace Sys2Proof.Machine

/-- INIT `nn, kk` (R67): accepted in every phase when the operands are in range (R65, R68), else InvalidParameter with the
payload consumed and the context untouched (R57, R120). -/
def execInit (nn kk : Nat) (s : State) : Host.Outcome State Fault Refusal :=
  match takePayload kk s with
  | none => .next s
  | some (key, held) =>
    if validInit nn kk then .next (respond .ok [] { held with hash := startHash nn kk key })
    else .next (reject .invalidParameter held)

/-- UPDATE `len` (R72): in ACTIVE the payload bytes are absorbed in order; in IDLE and DONE it is InvalidState, the payload
consumed and the context untouched (R117, R120). A computation that would absorb 2^128 bytes or more is refused (R74, D14). -/
def execUpdate (len : Nat) (s : State) : Host.Outcome State Fault Refusal :=
  match takePayload len s with
  | none => .next s
  | some (data, held) =>
    if held.hash.phase = .active then
      if held.hash.absorbed + len < Config.absorbedBound then
        .next (respond .ok [] { held with hash := absorbAll held.hash data })
      else .refused .absorbedTooLong
    else .next (reject .invalidState held)

/-- FINALIZE (R75): in ACTIVE the last block is compressed and the first `outlen` bytes of the chain value are returned; in
IDLE and DONE it is InvalidState and no digest byte (R60, R117). The refusal is that of UPDATE: it keeps the counter from
wrapping in states no run reaches (D14). -/
def execFinalize (s : State) : Host.Outcome State Fault Refusal :=
  if s.hash.phase = .active then
    if s.hash.absorbed < Config.absorbedBound then
      .next (respond .ok (digestOf s.hash.finish.h s.hash.finish.outlen.val) { s with hash := s.hash.finish })
    else .refused .absorbedTooLong
  else .next (reject .invalidState s)

end Sys2Proof.Machine
end

