-- ==== Sys2Proof/Machine/Fetch.lean ====
section
/-! DEFINITION. How a command comes before the engine: it takes the oldest command word of the command channel and decodes
it (spec/40_lifecycle_commands.md R66 step 1). There is no program counter and no instruction memory (spec/10_state.md R18). -/

namespace Sys2Proof.Machine

/-- What the decoder finds at the head of the command channel. -/
inductive Fetched where
  /-- No command is waiting. -/
  | none
  /-- A command. -/
  | command (i : Instr)
  /-- A word that is no command (R58). -/
  | illegal (e : DecodeError)
  deriving DecidableEq, Repr

/-- Decode the oldest command word, if there is one (R50, R66). -/
def fetch (s : State) : Fetched :=
  match s.commandIn with
  | [] => .none
  | w :: _ =>
    match decode w with
    | .ok i => .command i
    | .error e => .illegal e

/-- Put a command word, and a payload, in front of everything the host has on the channels. -/
def placeFirst (w : CommandWord) (payload : List Byte) (s : State) : State :=
  { s with commandIn := w :: s.commandIn, payloadIn := payload ++ s.payloadIn }

end Sys2Proof.Machine
end

