-- ==== Sys2Proof/Machine/Step.lean ====
section
/-! DEFINITION. One step of the machine: one whole transaction (spec/70_reset_and_hazards.md R140), or nothing while none is
there. -/

namespace Sys2Proof.Machine

/-- One step: with a command waiting, its meaning; with an illegal word waiting, IllegalCommand, no payload taken (R58,
R118); with none waiting, "the engine simply holds its state" (R132). -/
def step (s : State) : Host.Outcome State Fault Refusal :=
  match fetch s with
  | .none => .next s
  | .command i => exec i s
  | .illegal _ => .next (reject .illegalCommand s)

/-- `s` with the word `w` as the next command, and with as many zero bytes before the input stream as it declares, so that
the very next step runs it (log entry 3: this stands for the host's issuing the command). -/
def State.withFetchWord (s : State) (nbits w : Nat) : State :=
  let word : CommandWord := BitVec.ofNat 32 (w % 2 ^ nbits)
  placeFirst word (List.replicate (payLen word) 0x00#8) s

end Sys2Proof.Machine
end

