-- ==== Sys2Proof/Machine/Backends.lean ====
section
/-! DEFINITION. The backends of the Compression Core (spec/41_compression_core.md R92, R93): the scalar core, and the way a
vector core computes a round, its four independent calls of a step side by side (spec/42_permutation_rounds.md R102). The
machine itself uses the one COMPRESS of Machine/Compression.lean; that the backends compute the same function is stated in
the obligations (log entry 8). -/

namespace Sys2Proof.Machine

/-- The calls `js` side by side: all read the same `v`, then all write back. -/
def applyStep (m : MessageWords) (s : Vector (Fin 16) 16) (js : List (Fin 8)) (v : WorkVector) : WorkVector :=
  js.foldl (fun acc j => writeQuad callSchedule[j] (callResult m s j v) acc) v

/-- A round as a vector core evaluates it: the column step, and when it is finished the diagonal step (R102). -/
def vectorRound (m : MessageWords) (r : Nat) (v : WorkVector) : WorkVector :=
  applyStep m (sigmaRow r) diagonalCalls (applyStep m (sigmaRow r) columnCalls v)

/-- COMPRESS as the backend `b` computes it (R92). -/
def compressOn (b : Config.Backend) : Chain → Block → Word → Word → Bool → Chain :=
  match b with
  | .scalar => compressWith applyRound
  | .vector => compressWith vectorRound

end Sys2Proof.Machine
end

