-- ==== Sys2Proof/Machine/Contexts.lean ====
section
/-! DEFINITION. Several contexts (spec/60_exceptions.md R130, spec/10_state.md R25): `NUM_CONTEXTS` independent copies of the
machine, "each with its own command stream"; a command acts on exactly one, and nothing is shared. Which context moves next is
the platform's choice, so it is an argument (log entry 10). -/

namespace Sys2Proof.Machine

/-- `n` contexts, `n` being the open parameter `NUM_CONTEXTS` (R130). -/
abbrev Contexts (n : Nat) := Vector State n

/-- One step of the context `k`; every other context stands as it was (R130). -/
def stepContext {n : Nat} (k : Fin n) (cs : Contexts n) : Host.Outcome (Contexts n) Fault Refusal :=
  match step cs[k] with
  | .next s => .next (cs.set k s)
  | .fault r => .fault r
  | .refused r => .refused r

end Sys2Proof.Machine
end

