-- ==== Sys2Proof/Machine/Driver.lean ====
section
/-! DEFINITION. The host's side: transactions (spec/30_encoding.md R50), their submission to the channels, and the command
lines and pseudo-commands of the spec's own notation (R62, R63). -/

namespace Sys2Proof.Machine

/-- What the host sends for one command: the command word and its payload (R50). -/
structure Transaction where
  word : CommandWord
  payload : List Byte
  deriving DecidableEq, Repr

/-- The payload has exactly the length the word declares (R50, R57). -/
def Transaction.framed (t : Transaction) : Bool := t.payload.length == payLen t.word

/-- The transaction of a command with its payload. -/
def transactionOf (i : Instr) (payload : List Byte) : Transaction := ⟨encode i, payload⟩

/-- The host issues transactions, in order, behind whatever already stands on the channels (R42, R50). -/
def submit (ts : List Transaction) (s : State) : State :=
  { s with
    commandIn := s.commandIn ++ ts.map Transaction.word
    payloadIn := s.payloadIn ++ (ts.map Transaction.payload).flatten }

/-- The transactions of a whole computation: INIT with the key, one UPDATE for each chunk, FINALIZE (R138). -/
def hashTransactions (nn : Nat) (key : List Byte) (chunks : List (List Byte)) : List Transaction :=
  transactionOf (.init nn key.length) key ::
    (chunks.map fun c => transactionOf (.update c.length) c) ++ [transactionOf .finalize []]

/-- A command line of the spec's notation, the pseudo-commands included (R62, R63), after its text has been read (log
entry 16). -/
inductive CommandLine where
  /-- `init nn, kk, key=…`. -/
  | init (nn : Nat) (key : List Byte)
  /-- `init nn`, which expands to `init nn, 0`. -/
  | initUnkeyed (nn : Nat)
  /-- `update len, data=…`. -/
  | update (data : List Byte)
  /-- `final`. -/
  | final
  /-- `hash nn, key, msg`, which expands to `init`, `update`, `final`. -/
  | hash (nn : Nat) (key msg : List Byte)
  deriving DecidableEq, Repr

/-- Cut a byte sequence into consecutive pieces of at most `limit` bytes, at most `fuel + 1` of them; a sequence that fits is
one piece (R63). DESIGN CHOICE (log entry 16): every piece but the last has exactly `limit` bytes, where R63 says only "at most
`LENMAX` bytes each, in order"; and the empty sequence is one empty piece. -/
def pieces (limit : Nat) : Nat → List Byte → List (List Byte)
  | 0, data => [data]
  | fuel + 1, data => if data.length ≤ limit then [data] else data.take limit :: pieces limit fuel (data.drop limit)

/-- The UPDATE transactions of a data sequence: one, or with more than `LENMAX` bytes several (R63). -/
def updateTransactions (data : List Byte) : List Transaction :=
  (pieces Config.lenMax data.length data).map fun c => transactionOf (.update c.length) c

/-- The transactions a command line assembles to (R62, R63). -/
def assemble : CommandLine → List Transaction
  | .init nn key => [transactionOf (.init nn key.length) key]
  | .initUnkeyed nn => [transactionOf (.init nn 0) []]
  | .update data => updateTransactions data
  | .final => [transactionOf .finalize []]
  | .hash nn key msg =>
    transactionOf (.init nn key.length) key :: updateTransactions msg ++ [transactionOf .finalize []]

end Sys2Proof.Machine
end

