-- ==== Sys2Proof/Machine/OneShot.lean ====
section
/-! DEFINITION. What a whole computation compresses, written block by block from the absorbed data and not from the commands
(spec/40_lifecycle_commands.md R81), and the absorption of whole blocks at a time (R82). The machine uses neither: the
obligations relate them to the commands. -/

namespace Sys2Proof.Machine

/-- Block `i`, counted from 0, of the absorbed data `D`, zero-padded past its end (R81). -/
def dataBlock (data : List Byte) (i : Nat) : Block :=
  Vector.ofFn fun k => data.getD (Config.blockBytes * i + k.val) 0x00#8

/-- COMPRESS with the counter given as a number `t` (R12, R94). -/
def compressAt (h : Chain) (b : Block) (t : Nat) (f : Bool) : Chain :=
  compress h b (BitVec.ofNat 64 t) (BitVec.ofNat 64 (t / 2 ^ 64)) f

/-- The chain value after the first `n` blocks, each compressed as a non-final block with `t = 128 * i` (R81). -/
def chainAfter (h : Chain) (data : List Byte) : Nat → Chain
  | 0 => h
  | n + 1 => compressAt (chainAfter h data n) (dataBlock data n) (Config.blockBytes * (n + 1)) false

/-- The number of compressions, `N = max(1, ceil(L / 128))` (R81). -/
def compressionCount (length : Nat) : Nat := max 1 ((length + 127) / Config.blockBytes)

/-- The final chain value of the absorbed data `D`: `N - 1` non-final blocks, then the last block with `t = L` and `f = 1`
(R81). -/
def finalChain (h : Chain) (data : List Byte) : Chain :=
  let n := compressionCount data.length
  compressAt (chainAfter h data (n - 1)) (dataBlock data (n - 1)) data.length true

/-- The absorbed data `D = K ++ M`, with the key block `K` present exactly when there is a key (R71, R81). -/
def absorbedData (key msg : List Byte) : List Byte := (if key = [] then [] else keyBlock key) ++ msg

/-- The digest of the message `msg` under the key `key` (R81). -/
def oneShotDigest (nn : Nat) (key msg : List Byte) : List Byte :=
  digestOf (finalChain (initialChain nn key.length) (absorbedData key msg)) nn

/-- Absorb up to a block at a time: make room if the buffer is full and a byte follows, fill the buffer from the stream, go
on with the rest (R82). `fuel` bounds the number of turns. -/
def absorbBlocks : Nat → HashState → List Byte → HashState
  | 0, hs, _ => hs
  | _ + 1, hs, [] => hs
  | fuel + 1, hs, data =>
    let hs := hs.makeRoom
    let room := Config.blockBytes - hs.buflen.val
    absorbBlocks fuel
      { hs with
        buffer := writeBytes hs.buffer hs.buflen.val (data.take room)
        buflen := Fin.ofNat 129 (hs.buflen.val + min room data.length) }
      (data.drop room)

end Sys2Proof.Machine
end

