-- ==== Sys2Proof/Safety.lean ====
section
/-! DEFINITION. The terms in which claims are made: the invariant of the state (spec/10_state.md R23), what a reset may leave
(R26, R27, R136), and when two states cannot be told apart by any sequence of commands (R13, R27, R78). -/

namespace Sys2Proof.Machine

/-- The invariant of a context, item by item of R23: (i) `1 <= outlen` outside IDLE (its upper bound and (ii) are the types
of the fields); (iii) in ACTIVE the counter is a multiple of 128; (iv) in ACTIVE an empty buffer means a zero counter; the
bound of D14; and the canonical form of `buffer`. -/
structure HashState.Inv (hs : HashState) : Prop where
  buffer_wf : hs.buffer.wf
  outlen_pos : hs.phase ≠ .idle → 1 ≤ hs.outlen.val
  count_blocks : hs.phase = .active → Config.blockBytes ∣ hs.count
  empty_start : hs.phase = .active → hs.buflen.val = 0 → hs.count = 0
  in_contract : hs.phase = .active → hs.absorbed < Config.absorbedBound

/-- The invariant of the machine. -/
def State.Inv (s : State) : Prop := s.hash.Inv

/-- What a reset of a running machine may leave: phase IDLE, the command in progress lost without a response, and every other
component of the context unspecified (R26, R27, R135, R136); that `buffer` is in its canonical form is no restriction on its
bytes. That the channels are empty after it is a DESIGN CHOICE (log entry 12). -/
def ResetsTo (s s' : State) : Prop :=
  s'.hash.phase = .idle ∧ s'.hash.buffer.wf ∧ s'.commandIn = [] ∧ s'.payloadIn = [] ∧ s'.responseOut = s.responseOut

/-- Two contexts that no command tells apart: the same phase, and in ACTIVE the same chain value, counter, fill level and
digest length, and the same bytes below the fill level. In IDLE and DONE nothing else counts (R13, R27, R78). -/
def HashState.LooksSame (a b : HashState) : Prop :=
  a.phase = b.phase ∧
    (a.phase = .active →
      a.h = b.h ∧ a.t0 = b.t0 ∧ a.t1 = b.t1 ∧ a.buflen = b.buflen ∧ a.outlen = b.outlen ∧
        ∀ i < a.buflen.val, readByte a.buffer i = readByte b.buffer i)

/-- Two machines that no command tells apart: such contexts, and equal channels, the responses so far among them. -/
def State.LooksSame (s s' : State) : Prop :=
  s.hash.LooksSame s'.hash ∧ s.commandIn = s'.commandIn ∧ s.payloadIn = s'.payloadIn ∧ s.responseOut = s'.responseOut

/-- Two outcomes that no command tells apart. -/
def OutcomesLookSame : Host.Outcome State Fault Refusal → Host.Outcome State Fault Refusal → Prop
  | .next s, .next s' => s.LooksSame s'
  | .refused r, .refused r' => r = r'
  | _, _ => False

end Sys2Proof.Machine
end

