-- ==== Sys2Proof/Certificates/Slice0/Obligations.lean ====
section
/-! DEFINITION. The statements for the provers. Each docstring names the rule of spec/ it formalises, or, where the clause is
the model's own choice, the log entry of notes/assumptions/. -/

open Sys2Proof Sys2Proof.Machine

/-! ### Command words -/

/-- Decoding the word of a well-formed command gives the command back, every operand at every value its field admits
(R52 to R56). -/
def Obligations.DecodeOfEncode : Prop :=
  ∀ i : Instr, i.wellFormed = true → decode (encode i) = .ok i

/-- Every command word has one meaning: a word that decodes is the encoding of the well-formed command it decodes to
(R52 to R56). -/
def Obligations.EncodeOfDecode : Prop :=
  ∀ (w : CommandWord) (i : Instr), decode w = .ok i → i.wellFormed = true ∧ encode i = w

/-- R53 to R55 and R57: which words are INIT, UPDATE and FINALIZE, what their fields hold, and how long the payload is. -/
def Obligations.WordsDecodeByMaskAndFields : Prop :=
  ∀ w : CommandWord,
    (∀ nn kk, decode w = .ok (.init nn kk) ↔
      w &&& 0xFF0000FF#32 = 0x01000000#32 ∧ nn = w.toNat / 2 ^ 16 % 2 ^ 8 ∧ kk = w.toNat / 2 ^ 8 % 2 ^ 8) ∧
    (∀ len, decode w = .ok (.update len) ↔ w &&& 0xFF000000#32 = 0x02000000#32 ∧ len = w.toNat % 2 ^ 24) ∧
    (decode w = .ok .finalize ↔ w = 0x03000000#32) ∧
    payLen w =
      if w &&& 0xFF0000FF#32 = 0x01000000#32 then w.toNat / 2 ^ 8 % 2 ^ 8
      else if w &&& 0xFF000000#32 = 0x02000000#32 then w.toNat % 2 ^ 24
      else 0

/-- R58 and R118: the illegal words are opcode 0x00, opcodes 0x04 to 0xFF, opcode 0x01 with `w[7:0]` not zero and opcode 0x03
with `w[23:0]` not zero; such a word has no payload, changes no state and gets IllegalCommand, in any phase. -/
def Obligations.IllegalWordsGetIllegalCommand : Prop :=
  ∀ w : CommandWord,
    ((∃ e, decode w = .error e) ↔
      w.toNat / 2 ^ 24 = 0x00 ∨ 0x04 ≤ w.toNat / 2 ^ 24 ∨ (w.toNat / 2 ^ 24 = 0x01 ∧ w.toNat % 2 ^ 8 ≠ 0) ∨
        (w.toNat / 2 ^ 24 = 0x03 ∧ w.toNat % 2 ^ 24 ≠ 0)) ∧
    ∀ (s : State) (rest : List CommandWord) (e : DecodeError), s.commandIn = w :: rest → decode w = .error e →
      payLen w = 0 ∧
        step s = .next
          { hash := s.hash, commandIn := rest, payloadIn := s.payloadIn,
            responseOut := s.responseOut ++ [⟨.illegalCommand, []⟩] }

/-- Words written out in spec/30_encoding.md section 6 and spec/95_test_vectors.md V19 decode as listed there. -/
def Obligations.ListedWordsDecodeAsListed : Prop :=
  decode 0x01400000#32 = .ok (.init 64 0) ∧ decode 0x01201000#32 = .ok (.init 32 16) ∧
    decode 0x01404100#32 = .ok (.init 64 65) ∧ decode 0x01ffff00#32 = .ok (.init 255 255) ∧
    decode 0x02000003#32 = .ok (.update 3) ∧ decode 0x02ffffff#32 = .ok (.update 16777215) ∧
    decode 0x03000000#32 = .ok .finalize ∧
    decode 0x01400001#32 = .error .initFieldNotZero ∧ decode 0x03800000#32 = .error .finalizeFieldNotZero ∧
    decode 0x00000000#32 = .error .unknownOpcode ∧ decode 0x04000000#32 = .error .unknownOpcode

/-! ### The step -/

/-- A step runs the decoded command: with a word that decodes at the head of the command channel the step is the command's
meaning at that state, and nothing is added around it (R50, R66). -/
def Obligations.StepRunsDecodedCommand : Prop :=
  ∀ (s : State) (w : CommandWord) (rest : List CommandWord) (i : Instr),
    s.commandIn = w :: rest → decode w = .ok i → step s = exec i s

/-- R132: "Between commands the engine simply holds its state." -/
def Obligations.StepHoldsStateBetweenCommands : Prop :=
  ∀ s : State, s.commandIn = [] → step s = .next s

/-- While the payload a command word declares is not all on the input stream the machine holds its state, the command word
still waiting. The model's choice, log entry 4. -/
def Obligations.StepWaitsForWholePayload : Prop :=
  ∀ (s : State) (w : CommandWord) (rest : List CommandWord),
    s.commandIn = w :: rest → s.payloadIn.length < payLen w → step s = .next s

/-! ### INIT -/

/-- R67 and R68. With its payload there, INIT is accepted exactly when `1 <= nn <= 64` and `kk <= 64`, whatever the phase, and
then every component of the context has the value of R67 (with the key as the zero-padded first block); otherwise it answers
InvalidParameter, consumes its payload and changes nothing else. -/
def Obligations.InitCommandResult : Prop :=
  ∀ (nn kk : Nat) (s : State), kk ≤ s.payloadIn.length →
    ((1 ≤ nn ∧ nn ≤ 64 ∧ kk ≤ 64) →
      ∃ t, exec (.init nn kk) s = .next t ∧
        t.hash.h[0] = iv[0] ^^^ BitVec.ofNat 64 (0x0000000001010000 + 256 * kk + nn) ∧
        (∀ i : Fin 8, i ≠ 0 → t.hash.h[i] = iv[i]) ∧
        t.hash.t0 = 0 ∧ t.hash.t1 = 0 ∧
        (∀ a < 128, readByte t.hash.buffer a = if a < kk then s.payloadIn.getD a 0x00#8 else 0x00#8) ∧
        t.hash.buflen.val = (if kk = 0 then 0 else 128) ∧
        t.hash.outlen.val = nn ∧ t.hash.phase = .active ∧
        t.commandIn = s.commandIn.tail ∧ t.payloadIn = s.payloadIn.drop kk ∧
        t.responseOut = s.responseOut ++ [⟨.ok, []⟩]) ∧
    (¬ (1 ≤ nn ∧ nn ≤ 64 ∧ kk ≤ 64) →
      exec (.init nn kk) s = .next
        { hash := s.hash, commandIn := s.commandIn.tail, payloadIn := s.payloadIn.drop kk,
          responseOut := s.responseOut ++ [⟨.invalidParameter, []⟩] })

/-- R69: the parameter block has the digest length in byte 0, the key length in byte 1, 0x01 in bytes 2 and 3 and zero from
byte 4 on; the initial chain value is IV XORed with its little-endian words, which changes word 0 only. -/
def Obligations.InitialChainFromParameterBlock : Prop :=
  ∀ nn kk : Nat, nn ≤ 64 → kk ≤ 64 →
    (parameterBlock nn kk)[0].toNat = nn ∧ (parameterBlock nn kk)[1].toNat = kk ∧
    (parameterBlock nn kk)[2] = 0x01#8 ∧ (parameterBlock nn kk)[3] = 0x01#8 ∧
    (∀ i : Fin 64, 4 ≤ i.val → (parameterBlock nn kk)[i] = 0x00#8) ∧
    (∀ i : Fin 8, (initialChain nn kk)[i] =
      iv[i] ^^^ load64le (Vector.ofFn fun k : Fin 8 => (parameterBlock nn kk)[8 * i.val + k.val])) ∧
    (initialChain nn kk)[0] = iv[0] ^^^ BitVec.ofNat 64 (0x01010000 + 256 * kk + nn) ∧
    (∀ i : Fin 8, i ≠ 0 → (initialChain nn kk)[i] = iv[i])

/-- R71: a key of 1 to 64 bytes acts as if the 128 bytes `key ++ zeros(128 - kk)` had been absorbed into the fresh state that
holds no byte yet. -/
def Obligations.KeyIsAbsorbedAsFirstBlock : Prop :=
  ∀ (nn : Nat) (key : List Byte), 1 ≤ key.length → key.length ≤ 64 →
    absorbAll { startHash nn key.length key with buffer := clearedBuffer, buflen := 0 } (keyBlock key) =
      startHash nn key.length key

/-! ### UPDATE -/

/-- R72. With its payload there, UPDATE in ACTIVE absorbs the payload bytes in order and answers OK; in IDLE and DONE it
answers InvalidState, consumes its payload and changes nothing else. The bound on the absorbed bytes is D14's. -/
def Obligations.UpdateCommandResult : Prop :=
  ∀ (len : Nat) (s : State), len ≤ s.payloadIn.length →
    (s.hash.phase = .active → s.hash.absorbed + len < 2 ^ 128 →
      exec (.update len) s = .next
        { hash := (s.payloadIn.take len).foldl absorb s.hash, commandIn := s.commandIn.tail,
          payloadIn := s.payloadIn.drop len, responseOut := s.responseOut ++ [⟨.ok, []⟩] }) ∧
    (s.hash.phase ≠ .active →
      exec (.update len) s = .next
        { hash := s.hash, commandIn := s.commandIn.tail, payloadIn := s.payloadIn.drop len,
          responseOut := s.responseOut ++ [⟨.invalidState, []⟩] })

/-- R73: ABSORB compresses a full buffer first, as a non-final block with the counter advanced by 128, and stores the byte at
offset 0; otherwise it stores it at `buflen`; every other byte of the buffer stands. -/
def Obligations.AbsorbOneByte : Prop :=
  ∀ (hs : HashState) (b : Byte), hs.buffer.wf →
    (absorb hs b).outlen = hs.outlen ∧ (absorb hs b).phase = hs.phase ∧
    (∀ a, readByte (absorb hs b).buffer a = if a = storeOffset hs.buflen then b else readByte hs.buffer a) ∧
    (hs.buflen.val = 128 →
      storeOffset hs.buflen = 0 ∧ (absorb hs b).buflen.val = 1 ∧
        ((absorb hs b).t1, (absorb hs b).t0) = addCounter hs.t1 hs.t0 128 ∧
        (absorb hs b).h =
          compress hs.h (blockOf hs.buffer) (addCounter hs.t1 hs.t0 128).2 (addCounter hs.t1 hs.t0 128).1 false) ∧
    (hs.buflen.val < 128 →
      storeOffset hs.buflen = hs.buflen.val ∧ (absorb hs b).buflen.val = hs.buflen.val + 1 ∧
        (absorb hs b).t1 = hs.t1 ∧ (absorb hs b).t0 = hs.t0 ∧ (absorb hs b).h = hs.h)

/-- A full buffer is held, not compressed (R14, R72, R141): an UPDATE whose bytes fit into the buffer, up to exactly 128,
leaves the chain value and the counter alone and only appends to the buffer. -/
def Obligations.UpdateThatFitsCompressesNothing : Prop :=
  ∀ (len : Nat) (s : State), s.hash.buffer.wf → s.hash.phase = .active → len ≤ s.payloadIn.length →
    s.hash.buflen.val + len ≤ 128 → s.hash.absorbed + len < 2 ^ 128 →
    ∃ t, exec (.update len) s = .next t ∧
      t.hash.h = s.hash.h ∧ t.hash.t0 = s.hash.t0 ∧ t.hash.t1 = s.hash.t1 ∧
      t.hash.outlen = s.hash.outlen ∧ t.hash.phase = .active ∧
      t.hash.buflen.val = s.hash.buflen.val + len ∧
      ∀ a, readByte t.hash.buffer a =
        if s.hash.buflen.val ≤ a ∧ a < s.hash.buflen.val + len then s.payloadIn.getD (a - s.hash.buflen.val) 0x00#8
        else readByte s.hash.buffer a

/-- How many compressions one UPDATE causes, `floor((buflen + len - 1) / 128)`, each advancing the counter by 128, and how
full it leaves the buffer (R72; R23 (iii), (iv)). -/
def Obligations.UpdateAdvancesCounterByWholeBlocks : Prop :=
  ∀ (len : Nat) (s : State), s.hash.phase = .active → len ≤ s.payloadIn.length → s.hash.absorbed + len < 2 ^ 128 →
    ∃ t, exec (.update len) s = .next t ∧
      t.hash.count = s.hash.count + 128 * ((s.hash.buflen.val + len - 1) / 128) ∧
      t.hash.absorbed = s.hash.absorbed + len ∧
      (0 < len → t.hash.buflen.val = (s.hash.buflen.val + len - 1) % 128 + 1)

/-- The frame of UPDATE in ACTIVE: the digest length and the phase stand; byte `k` of the payload goes to the offset
`(storeOffset buflen + k) mod 128`, every offset no byte goes to reads as before, and the last byte to go to an offset is what
it reads as (R15, R30, R73). -/
def Obligations.UpdateWritesOnlyItsOffsets : Prop :=
  ∀ (len : Nat) (s : State), s.hash.buffer.wf → s.hash.phase = .active → len ≤ s.payloadIn.length →
    s.hash.absorbed + len < 2 ^ 128 →
    ∃ t, exec (.update len) s = .next t ∧
      t.hash.outlen = s.hash.outlen ∧ t.hash.phase = s.hash.phase ∧
      t.commandIn = s.commandIn.tail ∧ t.payloadIn = s.payloadIn.drop len ∧
      (∀ a, (∀ k < len, (storeOffset s.hash.buflen + k) % 128 ≠ a) →
        readByte t.hash.buffer a = readByte s.hash.buffer a) ∧
      (∀ k < len, len ≤ k + 128 →
        readByte t.hash.buffer ((storeOffset s.hash.buflen + k) % 128) = s.payloadIn.getD k 0x00#8)

/-- R80, chunking invariance: one UPDATE of `A ++ B`, and an UPDATE of `A` followed by one of `B`, lead to the same context and
leave the same rest of the input stream. -/
def Obligations.SplitUpdateGivesSameState : Prop :=
  ∀ (s : State) (a b rest : List Byte), s.hash.phase = .active → s.payloadIn = a ++ b ++ rest →
    s.hash.absorbed + (a.length + b.length) < 2 ^ 128 →
    ∃ t t₁ t₂, exec (.update (a.length + b.length)) s = .next t ∧
      exec (.update a.length) s = .next t₁ ∧ exec (.update b.length) t₁ = .next t₂ ∧
      t.hash = t₂.hash ∧ t.payloadIn = rest ∧ t₂.payloadIn = rest

/-! ### FINALIZE -/

/-- R75 and R76. FINALIZE in ACTIVE advances the counter by `buflen`, pads the buffer with zero bytes, compresses it as the
final block, enters DONE and answers OK with the first `outlen` bytes of the chain value; the digest length and the fill level
stand (R78). In IDLE and DONE it answers InvalidState without digest bytes and changes nothing else. The bound is D14's. -/
def Obligations.FinalizeCommandResult : Prop :=
  ∀ s : State, s.hash.buffer.wf →
    (s.hash.phase = .active → s.hash.absorbed < 2 ^ 128 →
      ∃ t, exec .finalize s = .next t ∧
        (t.hash.t1, t.hash.t0) = addCounter s.hash.t1 s.hash.t0 s.hash.buflen.val ∧
        (∀ a, readByte t.hash.buffer a =
          if s.hash.buflen.val ≤ a ∧ a < 128 then 0x00#8 else readByte s.hash.buffer a) ∧
        t.hash.h = compress s.hash.h (blockOf t.hash.buffer) t.hash.t0 t.hash.t1 true ∧
        t.hash.buflen = s.hash.buflen ∧ t.hash.outlen = s.hash.outlen ∧ t.hash.phase = .done ∧
        t.commandIn = s.commandIn.tail ∧ t.payloadIn = s.payloadIn ∧
        t.responseOut = s.responseOut ++ [⟨.ok, digestOf t.hash.h s.hash.outlen.val⟩]) ∧
    (s.hash.phase ≠ .active →
      exec .finalize s = .next
        { hash := s.hash, commandIn := s.commandIn.tail, payloadIn := s.payloadIn,
          responseOut := s.responseOut ++ [⟨.invalidState, []⟩] })

/-- R77: in a state that meets the invariant the digest FINALIZE answers with has exactly `outlen` bytes, 1 to 64, and the
counter then is the number of bytes absorbed (R23 (vi), R78). -/
def Obligations.DigestHasRequestedLength : Prop :=
  ∀ s : State, s.Inv → s.hash.phase = .active →
    ∃ t digest, exec .finalize s = .next t ∧ t.responseOut = s.responseOut ++ [⟨.ok, digest⟩] ∧
      digest.length = s.hash.outlen.val ∧ 1 ≤ digest.length ∧ digest.length ≤ 64 ∧
      t.hash.count = s.hash.absorbed

/-- R36: DIGEST `(h, n)` has `n` bytes, and byte `k` is bits `8*(k mod 8)+7 : 8*(k mod 8)` of `h[k div 8]`. -/
def Obligations.DigestBytesAreChainBytes : Prop :=
  ∀ (h : Chain) (n : Nat), n ≤ 64 →
    (digestOf h n).length = n ∧
    ∀ k : Fin 64, k.val < n →
      (digestOf h n)[k.val]? = some ((h[k.val / 8]).extractLsb' (8 * (k.val % 8)) 8)

/-- R79: after an accepted FINALIZE a second one, and an UPDATE, answer InvalidState and leave the context alone. -/
def Obligations.FinalizedContextIsSpent : Prop :=
  ∀ (s t : State) (len : Nat), s.hash.phase = .active → exec .finalize s = .next t → len ≤ t.payloadIn.length →
    (∃ u, exec .finalize t = .next u ∧ u.hash = t.hash ∧ u.responseOut = t.responseOut ++ [⟨.invalidState, []⟩]) ∧
    (∃ u, exec (.update len) t = .next u ∧ u.hash = t.hash ∧
      u.responseOut = t.responseOut ++ [⟨.invalidState, []⟩])

/-! ### Bytes, words and the counter -/

/-- R34: byte `k` of STORE64LE `(w)` is the bits `8k+7 : 8k` of `w`, LOAD64LE and STORE64LE are inverses of each other, and
`MemWrite(a, 8, w)` writes STORE64LE `(w)` to the eight bytes from `a` on and nothing else. -/
def Obligations.LoadAndStoreAreInverse : Prop :=
  (∀ w : Word, load64le (store64le w) = w) ∧ (∀ s : Vector Byte 8, store64le (load64le s) = s) ∧
  (∀ (w : Word) (k : Fin 8), (store64le w)[k] = w.extractLsb' (8 * k.val) 8) ∧
  (∀ (m : Memory) (a : Nat) (w : Word), m.wf → a + 8 ≤ 128 →
    (∀ k : Fin 8, readByte (memWrite m a 8 w.toNat) (a + k.val) = (store64le w)[k]) ∧
    ∀ i, (i < a ∨ a + 8 ≤ i) → readByte (memWrite m a 8 w.toNat) i = readByte m i)

/-- R33 and R35: LOAD64LE takes byte 0 as the least significant, `MemRead(a, 8)` is LOAD64LE of the eight bytes from `a` on,
and message word `i` of a block is LOAD64LE of its bytes `8i` to `8i + 7`. -/
def Obligations.LoadReadsLittleEndian : Prop :=
  (∀ s : Vector Byte 8, (load64le s).toNat =
    s[0].toNat + s[1].toNat * 2 ^ 8 + s[2].toNat * 2 ^ 16 + s[3].toNat * 2 ^ 24 + s[4].toNat * 2 ^ 32 +
      s[5].toNat * 2 ^ 40 + s[6].toNat * 2 ^ 48 + s[7].toNat * 2 ^ 56) ∧
  (∀ (m : Memory) (a : Nat),
    memRead m a 8 = (load64le (Vector.ofFn fun k : Fin 8 => readByte m (a + k.val))).toNat) ∧
  (∀ (b : Block) (i : Fin 16),
    (messageWords b)[i] = load64le (Vector.ofFn fun k : Fin 8 => b[8 * i.val + k.val]))

/-- R74: ADDCTR adds 128-bit numbers modulo 2^128, the carry going from the low word into the high word. -/
def Obligations.CounterAddsModulo128Bits : Prop :=
  ∀ (t1 t0 : Word) (n : Nat), n ≤ 128 →
    (addCounter t1 t0 n).2 = t0 + BitVec.ofNat 64 n ∧
    (addCounter t1 t0 n).1 = (if 2 ^ 64 ≤ t0.toNat + n then t1 + 1 else t1) ∧
    counterValue (addCounter t1 t0 n).1 (addCounter t1 t0 n).2 = (counterValue t1 t0 + n) % 2 ^ 128

/-! ### The mixing function, the rounds and COMPRESS -/

/-- R107: bit `i` of `ROTR64(p, n)` is bit `(i + n) mod 64` of `p`, for each of the four amounts. -/
def Obligations.RotationMovesEveryBit : Prop :=
  ∀ (p : Word) (n : Nat), n = 32 ∨ n = 24 ∨ n = 16 ∨ n = 63 →
    ∀ i < 64, (rotr64 p n).getLsbD i = p.getLsbD ((i + n) % 64)

/-- R110 (vi): for fixed `x`, `y`, G is a bijection on `(a, b, c, d)`. -/
def Obligations.MixingIsBijective : Prop :=
  ∀ x y : Word, Function.Bijective fun q : Quad => mixG q x y

/-- R110 (iv): `a` and `x` enter G only through the sum `a + b + x`. -/
def Obligations.MixingUsesOnlySumOfFirstWords : Prop :=
  ∀ (q : Quad) (x y : Word), mixG q x y = mixG { q with a := q.a + x } 0 y

/-- R98 to R100: a call writes G of its four words, with the message words of its place in the sigma row, to those four
registers, and leaves the other twelve alone. -/
def Obligations.CallWritesItsFourWords : Prop :=
  ∀ (m : MessageWords) (r : Nat) (v : WorkVector) (j : Fin 8),
    let c := callSchedule[j]
    let q := mixG ⟨v[c.a], v[c.b], v[c.c], v[c.d]⟩ m[(sigmaRow r)[2 * j.val]] m[(sigmaRow r)[2 * j.val + 1]]
    let v' := applyCall m (sigmaRow r) v j
    v'[c.a] = q.a ∧ v'[c.b] = q.b ∧ v'[c.c] = q.c ∧ v'[c.d] = q.d ∧
      ∀ i : Fin 16, i ≠ c.a → i ≠ c.b → i ≠ c.c → i ≠ c.d → v'[i] = v[i]

/-- R96, R97 and R99: every row of SIGMA is a permutation of 0 to 15, so a round uses each message word exactly once, and
rounds 10 and 11 use rows 0 and 1 again. -/
def Obligations.SigmaRowsArePermutations : Prop :=
  (∀ r : Fin 10, sigmaRow r.val = sigma[r] ∧ sigma[r].toList.Perm (List.finRange 16)) ∧
    sigmaRow 10 = sigma[0] ∧ sigmaRow 11 = sigma[1]

/-- R102: within the column group and within the diagonal group the calls may be evaluated in any order. -/
def Obligations.CallOrderWithinStepIsFree : Prop :=
  ∀ (m : MessageWords) (r : Nat) (v : WorkVector) (columns diagonals : List (Fin 8)),
    columns.Perm columnCalls → diagonals.Perm diagonalCalls →
    applyCalls m (sigmaRow r) diagonals (applyCalls m (sigmaRow r) columns v) = applyRound m r v

/-- R86: the working vector word by word. -/
def Obligations.WorkVectorWordByWord : Prop :=
  ∀ (h : Chain) (t0 t1 : Word) (f : Bool),
    (∀ i : Fin 8, (workVector h t0 t1 f)[i.val] = h[i]) ∧
    (∀ i : Fin 4, (workVector h t0 t1 f)[i.val + 8] = iv[i.val]) ∧
    (workVector h t0 t1 f)[12] = iv[4] ^^^ t0 ∧ (workVector h t0 t1 f)[13] = iv[5] ^^^ t1 ∧
    (workVector h t0 t1 f)[14] = (if f then ~~~iv[6] else iv[6]) ∧ (workVector h t0 t1 f)[15] = iv[7]

/-- R88, R89 and R101: COMPRESS runs exactly the rounds 0 to 11 in order and feeds the old chain value forward. -/
def Obligations.CompressRunsTwelveRounds : Prop :=
  ∀ (h : Chain) (b : Block) (t0 t1 : Word) (f : Bool) (i : Fin 8),
    let m := messageWords b
    let v := applyRound m 11 <| applyRound m 10 <| applyRound m 9 <| applyRound m 8 <| applyRound m 7 <|
      applyRound m 6 <| applyRound m 5 <| applyRound m 4 <| applyRound m 3 <| applyRound m 2 <|
      applyRound m 1 <| applyRound m 0 <| workVector h t0 t1 f
    (compress h b t0 t1 f)[i] = h[i] ^^^ v[i.val] ^^^ v[i.val + 8]

/-- R92: a vector backend, which evaluates the four calls of a step side by side, computes the same function as the scalar
core, for every input. That a vector backend has this shape is DEDUCED from R92 and R102 (log entry 8). -/
def Obligations.EveryBackendComputesCompress : Prop :=
  ∀ (backend : Config.Backend) (h : Chain) (b : Block) (t0 t1 : Word) (f : Bool),
    compressOn backend h b t0 t1 f = compress h b t0 t1 f

/-! ### Rules of the whole machine -/

/-- R65, the phase machine, cell by cell: what every whole transaction does to the context, its status and its digest. -/
def Obligations.PhaseMachineTable : Prop :=
  ∀ (s t : State) (w : CommandWord) (rest : List CommandWord),
    s.commandIn = w :: rest → payLen w ≤ s.payloadIn.length → step s = .next t →
    ∃ status digest, t.responseOut = s.responseOut ++ [⟨status, digest⟩] ∧
      match decode w with
      | .ok (.init nn kk) =>
        if 1 ≤ nn ∧ nn ≤ 64 ∧ kk ≤ 64 then
          t.hash = startHash nn kk (s.payloadIn.take kk) ∧ t.hash.phase = .active ∧ status = .ok ∧ digest = []
        else t.hash = s.hash ∧ status = .invalidParameter ∧ digest = []
      | .ok (.update len) =>
        if s.hash.phase = .active then
          t.hash = (s.payloadIn.take len).foldl absorb s.hash ∧ t.hash.phase = .active ∧ status = .ok ∧ digest = []
        else t.hash = s.hash ∧ status = .invalidState ∧ digest = []
      | .ok .finalize =>
        if s.hash.phase = .active then
          t.hash = s.hash.finish ∧ t.hash.phase = .done ∧ status = .ok ∧ digest = digestOf t.hash.h s.hash.outlen.val
        else t.hash = s.hash ∧ status = .invalidState ∧ digest = []
      | .error _ => t.hash = s.hash ∧ status = .illegalCommand ∧ digest = []

/-- R120: a command that ends with another status than OK leaves every component of the context as it was, and its payload is
consumed. -/
def Obligations.RejectedCommandChangesNothing : Prop :=
  ∀ (s t : State) (w : CommandWord) (rest : List CommandWord) (r : Response),
    s.commandIn = w :: rest → step s = .next t → t.responseOut = s.responseOut ++ [r] → r.status ≠ .ok →
    t.hash = s.hash ∧ t.payloadIn = s.payloadIn.drop (payLen w) ∧ t.commandIn = rest ∧ r.digest = []

/-- R60: every transaction ends with one response: a status, with digest bytes if and only if the command was FINALIZE and
the status is OK, and then exactly the first `outlen` bytes of the new chain value (states that meet the invariant, whose
lower bound of `outlen` makes those digest bytes at least one). -/
def Obligations.DigestOnlyFromAcceptedFinalize : Prop :=
  ∀ (s t : State) (w : CommandWord) (rest : List CommandWord),
    s.Inv → s.commandIn = w :: rest → payLen w ≤ s.payloadIn.length → step s = .next t →
    ∃ r, t.responseOut = s.responseOut ++ [r] ∧
      (r.digest ≠ [] ↔ w = encode .finalize ∧ r.status = .ok) ∧
      (r.digest ≠ [] → r.digest = digestOf t.hash.h t.hash.outlen.val ∧ r.digest.length = s.hash.outlen.val)

/-- R116: InvalidParameter is raised by INIT and by nothing else, exactly when `nn = 0`, `nn > 64` or `kk > 64`. -/
def Obligations.InvalidParameterOnlyFromInit : Prop :=
  ∀ (s t : State) (w : CommandWord) (rest : List CommandWord) (r : Response),
    s.commandIn = w :: rest → step s = .next t → t.responseOut = s.responseOut ++ [r] →
    (r.status = .invalidParameter ↔
      ∃ nn kk, decode w = .ok (.init nn kk) ∧ (nn = 0 ∨ 64 < nn ∨ 64 < kk))

/-- R117: InvalidState is raised by UPDATE and FINALIZE exactly when the phase is not ACTIVE, and by nothing else. -/
def Obligations.InvalidStateOnlyOutsideActive : Prop :=
  ∀ (s t : State) (w : CommandWord) (rest : List CommandWord) (r : Response),
    s.commandIn = w :: rest → step s = .next t → t.responseOut = s.responseOut ++ [r] →
    (r.status = .invalidState ↔
      s.hash.phase ≠ .active ∧ ((∃ len, decode w = .ok (.update len)) ∨ decode w = .ok .finalize))

/-- R119: "no payload byte value and no chain value can cause an error". Two machines with the same command words, the same
phase and equally many bytes waiting and absorbed take the step alike and answer with the same status, whatever their bytes,
chain values and buffers are. -/
def Obligations.NoDataByteCausesAnError : Prop :=
  ∀ s s' t : State, s.commandIn = s'.commandIn → s.payloadIn.length = s'.payloadIn.length →
    s.hash.phase = s'.hash.phase → s.hash.absorbed = s'.hash.absorbed → step s = .next t →
    ∃ t', step s' = .next t' ∧ t'.commandIn = t.commandIn ∧ t'.payloadIn.length = t.payloadIn.length ∧
      t'.hash.phase = t.hash.phase ∧
      (t'.responseOut.drop s'.responseOut.length).map Response.status =
        (t.responseOut.drop s.responseOut.length).map Response.status

/-- R15: only INIT writes `outlen`, and only with a value it has checked to be in 1 to 64. -/
def Obligations.OnlyInitWritesDigestLength : Prop :=
  ∀ s t : State, step s = .next t → t.hash.outlen ≠ s.hash.outlen →
    ∃ w kk, s.commandIn.head? = some w ∧ decode w = .ok (.init t.hash.outlen.val kk) ∧
      1 ≤ t.hash.outlen.val ∧ t.hash.outlen.val ≤ 64

/-- R12 and R23 (v): the byte counter never decreases from one INIT to the next: a step that lowers it is an accepted INIT. -/
def Obligations.CounterNeverDecreasesWithinComputation : Prop :=
  ∀ s t : State, step s = .next t → t.hash.count < s.hash.count →
    t.hash.count = 0 ∧ t.hash.phase = .active ∧
      ∃ w nn kk, s.commandIn.head? = some w ∧ decode w = .ok (.init nn kk) ∧ validInit nn kk = true

/-- The machine refuses a step exactly when an UPDATE or a FINALIZE in ACTIVE, its payload there, would bring the absorbed
bytes to 2^128 or more (92_eei_decisions.md D14, 93_implementation_defined.md U1). -/
def Obligations.OnlyOverlongComputationIsRefused : Prop :=
  ∀ (s : State) (r : Refusal),
    step s = .refused r ↔
      r = .absorbedTooLong ∧ s.hash.phase = .active ∧
        ∃ w rest i, s.commandIn = w :: rest ∧ decode w = .ok i ∧ (i = .finalize ∨ ∃ len, i = .update len) ∧
          payloadLength i ≤ s.payloadIn.length ∧ 2 ^ 128 ≤ s.hash.absorbed + payloadLength i

/-- The invariant of R23 with the canonical form of the buffer is kept by every step, from every state that meets it. -/
def Obligations.StepKeepsInvariant : Prop :=
  ∀ s t : State, s.Inv → step s = .next t → t.Inv

/-- The state after reset meets the invariant. -/
def Obligations.ResetMeetsInvariant : Prop := State.reset.Inv

/-- R26: reset sets the phase to IDLE. The channels empty, and zeros in the components the spec leaves unspecified, are the
model's choice (log entries 1 and 3). -/
def Obligations.ResetStateIsIdle : Prop :=
  State.reset.hash.phase = .idle ∧ State.reset.commandIn = [] ∧ State.reset.payloadIn = [] ∧
    State.reset.responseOut = []

/-- R13, R27, R78: what the spec leaves unspecified never shows. Two machines whose contexts differ only in components that
are unspecified (everything but the phase in IDLE and in DONE; the stale bytes of the buffer in ACTIVE) give, over any number
of steps, the same responses (from states that meet the invariant). So no response rests on the zeros that log entry 1 chose. -/
def Obligations.UnspecifiedRegistersNeverShow : Prop :=
  ∀ (k : Nat) (s s' : State), s.Inv → s'.Inv → s.LooksSame s' →
    OutcomesLookSame (Host.Core.run Sys2Proof.core k s) (Host.Core.run Sys2Proof.core k s')

/-- R26, R27 and R136: whatever a reset leaves in the unspecified components, the machine answers every later sequence of
transactions alike. That a reset clears the channels, and that the transactions are queued ahead, is the model's choice (log
entries 12 and 5). -/
def Obligations.ResetContentsNeverShow : Prop :=
  ∀ (s a b : State) (ts : List Transaction) (k : Nat), ResetsTo s a → ResetsTo s b →
    OutcomesLookSame (Host.Core.run Sys2Proof.core k (submit ts a)) (Host.Core.run Sys2Proof.core k (submit ts b))

/-- R25 and R130: a step of one context leaves every other context as it was, and steps of two contexts commute. -/
def Obligations.ContextsAreIndependent : Prop :=
  ∀ (n : Nat) (cs cs₁ cs₂ : Contexts n) (i j : Fin n), i ≠ j →
    stepContext i cs = .next cs₁ → stepContext j cs = .next cs₂ →
    cs₁[j] = cs[j] ∧ cs₂[i] = cs[i] ∧
      ∃ both, stepContext j cs₁ = .next both ∧ stepContext i cs₂ = .next both ∧ both[i] = cs₁[i] ∧ both[j] = cs₂[j]

/-! ### Whole computations -/

/-- R82: absorbing up to a block at a time gives the state that absorbing byte by byte gives. -/
def Obligations.BlockwiseAbsorbIsBytewiseAbsorb : Prop :=
  ∀ (hs : HashState) (data : List Byte), absorbBlocks data.length hs data = absorbAll hs data

/-- R63: `update` with any number of bytes expands to consecutive UPDATE transactions of at most `LENMAX` bytes each, which
carry the bytes in order, and each of which has exactly the payload its word declares (R57). -/
def Obligations.LongUpdateExpandsInOrder : Prop :=
  ∀ data : List Byte,
    ((updateTransactions data).map Transaction.payload).flatten = data ∧
    ∀ t ∈ updateTransactions data,
      t.payload.length ≤ Config.lenMax ∧ decode t.word = .ok (.update t.payload.length) ∧ t.framed = true

/-- R81: from any state with nothing on its channels, whatever its phase and its registers, the transactions of a whole
computation (INIT with a key of at most 64 bytes, any number of UPDATEs of at most `LENMAX` bytes, FINALIZE) run to the end,
answer OK each, and the last answer carries the digest of the block-by-block description of R81. The bound is D14's.
That all transactions are queued ahead and taken one after another is the model's choice (log entry 5). -/
def Obligations.ComputationReturnsOneShotDigest : Prop :=
  ∀ (s : State) (nn : Nat) (key : List Byte) (chunks : List (List Byte)),
    s.commandIn = [] → s.payloadIn = [] → 1 ≤ nn → nn ≤ 64 → key.length ≤ 64 →
    (∀ c ∈ chunks, c.length ≤ Config.lenMax) → (absorbedData key chunks.flatten).length < 2 ^ 128 →
    ∃ t : State,
      Host.Core.run Sys2Proof.core (chunks.length + 2) (submit (hashTransactions nn key chunks) s) = .next t ∧
      t.hash.phase = .done ∧ t.commandIn = [] ∧ t.payloadIn = [] ∧
      t.responseOut = s.responseOut ++ List.replicate (chunks.length + 1) ⟨.ok, []⟩ ++
        [⟨.ok, oneShotDigest nn key chunks.flatten⟩]
end

