-- ==== Sys2Proof/Laws/Counter.lean ====
section
/-! SUPPORT. The byte counter as a number: what ADDCTR and the counter fields mean. -/

namespace Sys2Proof.Machine

theorem counterValue_lt (t1 t0 : Word) : counterValue t1 t0 < 2 ^ 128 := by
  have h1 := t1.isLt
  have h0 := t0.isLt
  unfold counterValue
  omega

/-- The two words of a counter value below 2^128 give it back. -/
theorem counterValue_ofNat {t : Nat} (h : t < 2 ^ 128) :
    counterValue (BitVec.ofNat 64 (t / 2 ^ 64)) (BitVec.ofNat 64 t) = t := by
  simp only [counterValue, BitVec.toNat_ofNat]
  omega

/-- A counter value determines its two words. -/
theorem words_of_counterValue {t1 t0 : Word} {t : Nat} (h : counterValue t1 t0 = t) :
    t0 = BitVec.ofNat 64 t ∧ t1 = BitVec.ofNat 64 (t / 2 ^ 64) := by
  have h1 := t1.isLt
  have h0 := t0.isLt
  unfold counterValue at h
  constructor <;> apply BitVec.eq_of_toNat_eq <;> simp only [BitVec.toNat_ofNat] <;> omega

/-- An empty addend changes nothing (R74: FINALIZE of an empty unkeyed message). -/
@[simp] theorem addCounter_zero (t1 t0 : Word) : addCounter t1 t0 0 = (t1, t0) := by
  simp [addCounter, counterCarry]

theorem count_lt (hs : HashState) : hs.count < 2 ^ 128 := counterValue_lt _ _

theorem absorbed_eq (hs : HashState) : hs.absorbed = hs.count + hs.buflen.val := rfl

end Sys2Proof.Machine
end

