-- ==== Sys2Proof/Laws/Memory.lean ====
section
/-! SUPPORT. `buffer`: a read after a write, the canonical form, and that equal contents are equal data. -/

namespace Sys2Proof.Machine

@[simp] theorem unlistedByte_eq : unlistedByte = 0#8 := rfl
@[simp] theorem readByte_nil (a : Nat) : readByte [] a = 0#8 := rfl

/-- An offset below every listed one reads as unlisted. -/
theorem readByte_of_lt {m : Memory} {a : Nat} (h : ∀ c ∈ m, a < c.1) : readByte m a = 0#8 := by
  induction m with
  | nil => rfl
  | cons c rest ih =>
    obtain ⟨k, x⟩ := c
    have hk := h (k, x) (by simp)
    simp only [readByte]
    rw [if_neg (by simp at hk; omega)]
    exact ih fun c hc => h c (by simp [hc])

/-- What follows the head of a canonical `buffer` is canonical and lies above the head. -/
theorem Memory.wf_cons {k : Nat} {x : Byte} {rest : Memory} (h : Memory.wf ((k, x) :: rest)) :
    Memory.wf rest ∧ (∀ c ∈ rest, k < c.1) ∧ k < 128 ∧ x ≠ 0#8 := by
  obtain ⟨hp, hc⟩ := h
  rw [List.pairwise_cons] at hp
  exact ⟨⟨hp.2, fun c h => hc c (by simp [h])⟩, hp.1, hc (k, x) (by simp)⟩

/-- The law of one byte: a read after a write gives the byte written at its offset, and the old byte elsewhere. -/
theorem readByte_writeByte {m : Memory} (hm : m.wf) (a i : Nat) (b : Byte) :
    readByte (writeByte m a b) i = if i = a then b else readByte m i := by
  induction m with
  | nil => by_cases hb : b = 0#8 <;> by_cases hi : a = i <;> simp [writeByte, readByte, unlistedByte, *, Ne.symm]
  | cons c rest ih =>
    obtain ⟨k, x⟩ := c
    obtain ⟨hrest, hlow, -, -⟩ := Memory.wf_cons hm
    have low : ∀ j ≤ k, readByte rest j = 0#8 := fun j hj =>
      readByte_of_lt fun c h => lt_of_le_of_lt hj (hlow c h)
    have ih := ih hrest
    simp only [writeByte, unlistedByte]
    by_cases hka : k < a
    · rw [if_pos hka]
      simp only [readByte, ih]
      split <;> split <;> first | rfl | omega
    · rw [if_neg hka]
      have hlow' := low a (by omega)
      by_cases hi : i = a
      · subst hi
        by_cases he : k = i <;> by_cases hb : b = 0#8 <;> simp [readByte, *]
      · have hi' : ¬ a = i := fun h => hi h.symm
        by_cases he : k = a <;> by_cases hb : b = 0#8 <;> simp [readByte, *]

/-- A write lists nothing but the byte written and what was listed. -/
theorem mem_writeByte {m : Memory} {a : Nat} {b : Byte} {c : Host.Cell} (h : c ∈ writeByte m a b) :
    (c = (a, b) ∧ b ≠ 0#8) ∨ c ∈ m := by
  induction m with
  | nil => by_cases hb : b = 0#8 <;> simp_all [writeByte, unlistedByte]
  | cons d rest ih =>
    obtain ⟨k, x⟩ := d
    simp only [writeByte, unlistedByte] at h
    by_cases hka : k < a
    · rw [if_pos hka, List.mem_cons] at h
      rcases h with rfl | h
      · simp
      · rcases ih h with h | h <;> simp [h]
    · rw [if_neg hka] at h
      by_cases he : k = a <;> by_cases hb : b = 0#8 <;> simp_all
      tauto

/-- A write to an offset of the buffer keeps the canonical form (R31: no other offset is ever written). -/
theorem writeByte_wf {m : Memory} (hm : m.wf) {a : Nat} (ha : a < 128) (b : Byte) : (writeByte m a b).wf := by
  refine ⟨?_, fun c hc => ?_⟩
  · induction m with
    | nil => by_cases hb : b = 0#8 <;> simp [writeByte, unlistedByte, hb]
    | cons d rest ih =>
      obtain ⟨k, x⟩ := d
      obtain ⟨hrest, hlow, -, -⟩ := Memory.wf_cons hm
      simp only [writeByte, unlistedByte]
      by_cases hka : k < a
      · rw [if_pos hka, List.pairwise_cons]
        refine ⟨fun c hc => ?_, ih hrest⟩
        rcases mem_writeByte hc with ⟨rfl, -⟩ | h
        · exact hka
        · exact hlow c h
      · rw [if_neg hka]
        have hrest' := hrest.1
        by_cases he : k = a
        · subst he
          by_cases hb : b = 0#8
          · simpa [hb] using hrest'
          · simpa [hb, hrest'] using fun c y => hlow (c, y)
        · by_cases hb : b = 0#8
          · simpa [hb, he] using hm.1
          · rw [if_neg hb, if_neg he]
            refine List.pairwise_cons.mpr ⟨fun c hc => ?_, hm.1⟩
            rcases List.mem_cons.mp hc with rfl | hc
            · show a < k
              omega
            · have := hlow c hc
              show a < c.1
              omega
  · rcases mem_writeByte hc with ⟨rfl, hb⟩ | h
    · exact ⟨ha, hb⟩
    · exact hm.2 c h

/-- A sequence of writes inside the buffer keeps the canonical form. -/
theorem writeBytes_wf {bs : List Byte} {m : Memory} {a : Nat} (hm : m.wf) (h : a + bs.length ≤ 128) :
    (writeBytes m a bs).wf := by
  induction bs generalizing m a with
  | nil => exact hm
  | cons b rest ih =>
    simp only [List.length_cons] at h
    exact ih (writeByte_wf hm (by omega) b) (by omega)

/-- `MemWrite` keeps the canonical form. -/
theorem memWrite_wf {m : Memory} {a n : Nat} (hm : m.wf) (h : a + n ≤ 128) (x : Nat) : (memWrite m a n x).wf :=
  writeBytes_wf hm (by simpa using h)

theorem clearedBuffer_wf : clearedBuffer.wf := by decide

/-- The law of a sequence of bytes: inside it the byte written, outside it the old byte. -/
theorem readByte_writeBytes {bs : List Byte} {m : Memory} {a : Nat} (hm : m.wf) (h : a + bs.length ≤ 128) (i : Nat) :
    readByte (writeBytes m a bs) i = if a ≤ i ∧ i < a + bs.length then bs.getD (i - a) 0#8 else readByte m i := by
  induction bs generalizing m a with
  | nil => simp [writeBytes]
  | cons b rest ih =>
    simp only [List.length_cons] at h ⊢
    rw [writeBytes, ih (writeByte_wf hm (by omega) b) (by omega), readByte_writeByte hm]
    by_cases hi : i = a
    · subst hi; simp
    · rw [if_neg hi]
      by_cases hin : a + 1 ≤ i ∧ i < a + 1 + rest.length
      · rw [if_pos hin, if_pos (by omega), show i - a = (i - (a + 1)) + 1 by omega, List.getD_cons_succ]
      · rw [if_neg hin, if_neg (by omega)]

/-- Two canonical buffers that read alike are equal: equal contents are equal data. -/
theorem Memory.ext_of_readByte {m m' : Memory} (hm : m.wf) (hm' : m'.wf) (h : ∀ i, readByte m i = readByte m' i) :
    m = m' := by
  induction m generalizing m' with
  | nil =>
    cases m' with
    | nil => rfl
    | cons c rest =>
      obtain ⟨k, x⟩ := c
      obtain ⟨-, -, -, hx⟩ := Memory.wf_cons hm'
      exact absurd (by simpa [readByte] using (h k).symm) hx
  | cons c rest ih =>
    obtain ⟨k, x⟩ := c
    obtain ⟨hrest, hlow, -, hx⟩ := Memory.wf_cons hm
    cases m' with
    | nil => exact absurd (by simpa [readByte] using h k) hx
    | cons c' rest' =>
      obtain ⟨k', x'⟩ := c'
      obtain ⟨hrest', hlow', -, hx'⟩ := Memory.wf_cons hm'
      have hk : k = k' := by
        rcases Nat.lt_trichotomy k k' with hlt | he | hgt
        · have := h k
          rw [readByte_of_lt (m := (k', x') :: rest')] at this
          · exact absurd (by simpa [readByte] using this) hx
          · intro c hc
            rcases List.mem_cons.mp hc with rfl | hc
            · exact hlt
            · exact hlt.trans (hlow' c hc)
        · exact he
        · have := h k'
          rw [readByte_of_lt (m := (k, x) :: rest)] at this
          · exact absurd (by simpa [readByte] using this.symm) hx'
          · intro c hc
            rcases List.mem_cons.mp hc with rfl | hc
            · exact hgt
            · exact hgt.trans (hlow c hc)
      subst hk
      have hxx : x = x' := by simpa [readByte] using h k
      subst hxx
      congr 1
      refine ih hrest hrest' fun i => ?_
      by_cases hi : k = i
      · subst hi
        rw [readByte_of_lt hlow, readByte_of_lt hlow']
      · simpa [readByte, hi] using h i

end Sys2Proof.Machine
end

