-- ==== Sys2Proof/Laws/State.lean ====
section
/-! SUPPORT. What each update of the state leaves and sets, field by field, so that no proof unfolds a record update. -/

namespace Sys2Proof.Machine

section Channels
variable (st : Status) (d : List Byte) (s : State)

@[simp] theorem respond_hash : (respond st d s).hash = s.hash := rfl
@[simp] theorem respond_commandIn : (respond st d s).commandIn = s.commandIn.tail := rfl
@[simp] theorem respond_payloadIn : (respond st d s).payloadIn = s.payloadIn := rfl
@[simp] theorem respond_responseOut : (respond st d s).responseOut = s.responseOut ++ [⟨st, d⟩] := rfl

@[simp] theorem reject_hash : (reject st s).hash = s.hash := rfl
@[simp] theorem reject_commandIn : (reject st s).commandIn = s.commandIn.tail := rfl
@[simp] theorem reject_payloadIn : (reject st s).payloadIn = s.payloadIn := rfl
@[simp] theorem reject_responseOut : (reject st s).responseOut = s.responseOut ++ [⟨st, []⟩] := rfl

variable (w : CommandWord) (p : List Byte)

@[simp] theorem placeFirst_hash : (placeFirst w p s).hash = s.hash := rfl
@[simp] theorem placeFirst_commandIn : (placeFirst w p s).commandIn = w :: s.commandIn := rfl
@[simp] theorem placeFirst_payloadIn : (placeFirst w p s).payloadIn = p ++ s.payloadIn := rfl
@[simp] theorem placeFirst_responseOut : (placeFirst w p s).responseOut = s.responseOut := rfl

variable (ts : List Transaction)

@[simp] theorem submit_hash : (submit ts s).hash = s.hash := rfl
@[simp] theorem submit_commandIn : (submit ts s).commandIn = s.commandIn ++ ts.map Transaction.word := rfl
@[simp] theorem submit_payloadIn :
    (submit ts s).payloadIn = s.payloadIn ++ (ts.map Transaction.payload).flatten := rfl
@[simp] theorem submit_responseOut : (submit ts s).responseOut = s.responseOut := rfl

end Channels

section Context
variable (hs : HashState) (n : Nat) (f : Bool) (b : Byte)

@[simp] theorem advance_h : (hs.advance n).h = hs.h := rfl
@[simp] theorem advance_t0 : (hs.advance n).t0 = (addCounter hs.t1 hs.t0 n).2 := rfl
@[simp] theorem advance_t1 : (hs.advance n).t1 = (addCounter hs.t1 hs.t0 n).1 := rfl
@[simp] theorem advance_buffer : (hs.advance n).buffer = hs.buffer := rfl
@[simp] theorem advance_buflen : (hs.advance n).buflen = hs.buflen := rfl
@[simp] theorem advance_outlen : (hs.advance n).outlen = hs.outlen := rfl
@[simp] theorem advance_phase : (hs.advance n).phase = hs.phase := rfl

@[simp] theorem compressBuffer_h :
    (hs.compressBuffer f).h = compress hs.h (blockOf hs.buffer) hs.t0 hs.t1 f := rfl
@[simp] theorem compressBuffer_t0 : (hs.compressBuffer f).t0 = hs.t0 := rfl
@[simp] theorem compressBuffer_t1 : (hs.compressBuffer f).t1 = hs.t1 := rfl
@[simp] theorem compressBuffer_buffer : (hs.compressBuffer f).buffer = hs.buffer := rfl
@[simp] theorem compressBuffer_buflen : (hs.compressBuffer f).buflen = hs.buflen := rfl
@[simp] theorem compressBuffer_outlen : (hs.compressBuffer f).outlen = hs.outlen := rfl
@[simp] theorem compressBuffer_phase : (hs.compressBuffer f).phase = hs.phase := rfl

@[simp] theorem pad_h : hs.pad.h = hs.h := rfl
@[simp] theorem pad_t0 : hs.pad.t0 = hs.t0 := rfl
@[simp] theorem pad_t1 : hs.pad.t1 = hs.t1 := rfl
@[simp] theorem pad_buffer :
    hs.pad.buffer = writeBytes hs.buffer hs.buflen.val (List.replicate (128 - hs.buflen.val) 0#8) := rfl
@[simp] theorem pad_buflen : hs.pad.buflen = hs.buflen := rfl
@[simp] theorem pad_outlen : hs.pad.outlen = hs.outlen := rfl
@[simp] theorem pad_phase : hs.pad.phase = hs.phase := rfl

@[simp] theorem finish_h :
    hs.finish.h = compress hs.h (blockOf hs.pad.buffer) hs.finish.t0 hs.finish.t1 true := rfl
@[simp] theorem finish_t0 : hs.finish.t0 = (addCounter hs.t1 hs.t0 hs.buflen.val).2 := rfl
@[simp] theorem finish_t1 : hs.finish.t1 = (addCounter hs.t1 hs.t0 hs.buflen.val).1 := rfl
@[simp] theorem finish_buffer : hs.finish.buffer = hs.pad.buffer := rfl
@[simp] theorem finish_buflen : hs.finish.buflen = hs.buflen := rfl
@[simp] theorem finish_outlen : hs.finish.outlen = hs.outlen := rfl
@[simp] theorem finish_phase : hs.finish.phase = .done := rfl

@[simp] theorem makeRoom_buffer : hs.makeRoom.buffer = hs.buffer := by unfold HashState.makeRoom; split <;> rfl
@[simp] theorem makeRoom_outlen : hs.makeRoom.outlen = hs.outlen := by unfold HashState.makeRoom; split <;> rfl
@[simp] theorem makeRoom_phase : hs.makeRoom.phase = hs.phase := by unfold HashState.makeRoom; split <;> rfl

/-- Making room leaves the fill level at the offset the next byte goes to (R31). -/
theorem makeRoom_buflen : hs.makeRoom.buflen.val = storeOffset hs.buflen := by
  have hlt := hs.buflen.isLt
  unfold HashState.makeRoom storeOffset
  split
  · next h => simp [h]
  · next h => simp only [Config.blockBytes] at h ⊢; omega

@[simp] theorem absorb_h : (absorb hs b).h = hs.makeRoom.h := rfl
@[simp] theorem absorb_t0 : (absorb hs b).t0 = hs.makeRoom.t0 := rfl
@[simp] theorem absorb_t1 : (absorb hs b).t1 = hs.makeRoom.t1 := rfl
@[simp] theorem absorb_buffer : (absorb hs b).buffer = writeByte hs.buffer (storeOffset hs.buflen) b := by
  simp [absorb]
@[simp] theorem absorb_outlen : (absorb hs b).outlen = hs.outlen := by simp [absorb]
@[simp] theorem absorb_phase : (absorb hs b).phase = hs.phase := by simp [absorb]

variable (nn kk : Nat) (key : List Byte)

@[simp] theorem startHash_h : (startHash nn kk key).h = initialChain nn kk := rfl
@[simp] theorem startHash_t0 : (startHash nn kk key).t0 = 0 := rfl
@[simp] theorem startHash_t1 : (startHash nn kk key).t1 = 0 := rfl
@[simp] theorem startHash_buffer :
    (startHash nn kk key).buffer = if 0 < kk then writeBytes [] 0 key else [] := rfl
@[simp] theorem startHash_buflen : (startHash nn kk key).buflen = if 0 < kk then 128 else 0 := rfl
@[simp] theorem startHash_outlen : (startHash nn kk key).outlen = Fin.ofNat 65 nn := rfl
@[simp] theorem startHash_phase : (startHash nn kk key).phase = .active := rfl

end Context

end Sys2Proof.Machine
end

