-- ==== Sys2Proof/Laws/Absorb.lean ====
section
/-! SUPPORT. ABSORB and the absorption of a byte sequence: what one byte, and then any number of bytes, do to the fill
level, the counter, the canonical form of `buffer`, the digest length and the phase. -/

namespace Sys2Proof.Machine

theorem storeOffset_lt (n : Fin 129) : storeOffset n < 128 := Nat.mod_lt _ (by decide)

/-- ADDCTR adds, as long as the sum stays below the bound of D14 (R74). -/
theorem addCounter_value {t1 t0 : Word} {n : Nat} (hn : n ≤ 128) (h : counterValue t1 t0 + n < 2 ^ 128) :
    counterValue (addCounter t1 t0 n).1 (addCounter t1 t0 n).2 = counterValue t1 t0 + n := by
  have h1 := t1.isLt
  have h0 := t0.isLt
  simp only [counterValue, addCounter, counterCarry] at h ⊢
  split <;> simp_all [BitVec.toNat_add, BitVec.toNat_ofNat] <;> omega

section OneByte
variable {hs : HashState} {b : Byte}

/-- One byte more than the fill level that making room leaves. -/
theorem absorb_buflen (hs : HashState) (b : Byte) : (absorb hs b).buflen.val = storeOffset hs.buflen + 1 := by
  have := storeOffset_lt hs.buflen
  simp only [absorb, Fin.ofNat]
  omega

/-- ABSORB keeps the canonical form of `buffer`. -/
theorem absorb_wf (h : hs.buffer.wf) (b : Byte) : (absorb hs b).buffer.wf := by
  rw [absorb_buffer]
  exact writeByte_wf h (storeOffset_lt _) _

/-- The counter moves by a block exactly when the buffer was full. -/
theorem absorb_count (h : hs.absorbed < 2 ^ 128) :
    (absorb hs b).count = hs.count + if hs.buflen.val = 128 then 128 else 0 := by
  unfold HashState.absorbed HashState.count at h
  unfold HashState.count
  rw [absorb_t0, absorb_t1]
  by_cases hb : hs.buflen.val = 128
  · rw [hb] at h
    simpa [HashState.makeRoom, hb] using addCounter_value (n := 128) (by decide) h
  · simp [HashState.makeRoom, hb]

/-- ABSORB absorbs one byte. -/
theorem absorb_absorbed (h : hs.absorbed < 2 ^ 128) : (absorb hs b).absorbed = hs.absorbed + 1 := by
  have := hs.buflen.isLt
  simp only [HashState.absorbed, absorb_count h, absorb_buflen, storeOffset, Config.blockBytes]
  split <;> omega

end OneByte

section ManyBytes
variable (hs : HashState) (b : Byte) (d e : List Byte)

theorem absorbAll_nil : absorbAll hs [] = hs := rfl

theorem absorbAll_cons : absorbAll hs (b :: d) = absorbAll (absorb hs b) d := rfl

theorem absorbAll_append : absorbAll hs (d ++ e) = absorbAll (absorbAll hs d) e := List.foldl_append

@[simp] theorem absorbAll_outlen : (absorbAll hs d).outlen = hs.outlen := by
  induction d generalizing hs with
  | nil => rfl
  | cons b d ih => rw [absorbAll_cons, ih, absorb_outlen]

@[simp] theorem absorbAll_phase : (absorbAll hs d).phase = hs.phase := by
  induction d generalizing hs with
  | nil => rfl
  | cons b d ih => rw [absorbAll_cons, ih, absorb_phase]

variable {hs d}

/-- Absorbing keeps the canonical form of `buffer`. -/
theorem absorbAll_wf (h : hs.buffer.wf) : (absorbAll hs d).buffer.wf := by
  induction d generalizing hs with
  | nil => exact h
  | cons b d ih => exact ih (absorb_wf h b)

/-- Absorbing absorbs as many bytes as there are. -/
theorem absorbAll_absorbed (h : hs.absorbed + d.length ≤ 2 ^ 128) :
    (absorbAll hs d).absorbed = hs.absorbed + d.length := by
  induction d generalizing hs with
  | nil => simp [absorbAll_nil]
  | cons b d ih =>
    rw [List.length_cons] at h ⊢
    have h1 := absorb_absorbed (hs := hs) (b := b) (by omega)
    rw [absorbAll_cons, ih (by omega), h1]
    omega

end ManyBytes

/-- INIT leaves `buffer` in its canonical form, whatever it was before. -/
theorem startHash_wf (nn kk : Nat) {key : List Byte} (h : key.length ≤ 128) : (startHash nn kk key).buffer.wf := by
  rw [startHash_buffer]
  split
  · exact writeBytes_wf clearedBuffer_wf (by omega)
  · exact clearedBuffer_wf

/-- The padding keeps the canonical form of `buffer`. -/
theorem pad_wf {hs : HashState} (h : hs.buffer.wf) : hs.pad.buffer.wf := by
  have := hs.buflen.isLt
  rw [pad_buffer]
  exact writeBytes_wf h (by rw [List.length_replicate]; omega)

/-- `buffer` after reset is in its canonical form. -/
theorem reset_buffer_wf : State.reset.hash.buffer.wf := clearedBuffer_wf

end Sys2Proof.Machine
end

