-- ==== Sys2Proof/Laws/Channels.lean ====
section
/-! SUPPORT. The channels: what taking a payload, answering and fetching do. -/

namespace Sys2Proof.Machine

/-- Taking a payload succeeds exactly when it is all there, and then splits it off the input stream and touches nothing
else. -/
theorem takePayload_eq_some {n : Nat} {s s' : State} {data : List Byte} :
    takePayload n s = some (data, s') ↔
      n ≤ s.payloadIn.length ∧ data = s.payloadIn.take n ∧ s' = { s with payloadIn := s.payloadIn.drop n } := by
  unfold takePayload
  split <;> simp_all [eq_comm]

theorem takePayload_eq_none {n : Nat} {s : State} : takePayload n s = none ↔ s.payloadIn.length < n := by
  unfold takePayload
  split <;> simp_all

/-- The payload taken has the length asked for. -/
theorem takePayload_length {n : Nat} {s s' : State} {data : List Byte} (h : takePayload n s = some (data, s')) :
    data.length = n := by
  obtain ⟨hn, rfl, -⟩ := takePayload_eq_some.mp h
  simpa using hn

theorem fetch_nil {s : State} (h : s.commandIn = []) : fetch s = .none := by simp [fetch, h]

theorem fetch_command {s : State} {w : CommandWord} {rest : List CommandWord} {i : Instr}
    (h : s.commandIn = w :: rest) (hd : decode w = .ok i) : fetch s = .command i := by simp [fetch, h, hd]

theorem fetch_illegal {s : State} {w : CommandWord} {rest : List CommandWord} {e : DecodeError}
    (h : s.commandIn = w :: rest) (hd : decode w = .error e) : fetch s = .illegal e := by simp [fetch, h, hd]

theorem step_of_fetch_none {s : State} (h : fetch s = .none) : step s = .next s := by simp [step, h]

theorem step_of_fetch_command {s : State} {i : Instr} (h : fetch s = .command i) : step s = exec i s := by
  simp [step, h]

theorem step_of_fetch_illegal {s : State} {e : DecodeError} (h : fetch s = .illegal e) :
    step s = .next (reject .illegalCommand s) := by simp [step, h]

end Sys2Proof.Machine
end

