-- ==== Sys2Proof/Laws/Commands.lean ====
section
/-! SUPPORT. Everything a step can do, said once: the eight moves of the machine, and its one refusal. -/

namespace Sys2Proof.Machine

/-- The check of INIT, in numbers (R68). -/
theorem validInit_iff {nn kk : Nat} : validInit nn kk = true ↔ 1 ≤ nn ∧ nn ≤ 64 ∧ kk ≤ 64 := by
  simp only [validInit, Bool.and_eq_true, decide_eq_true_eq, and_assoc]

theorem validInit_eq_false_iff {nn kk : Nat} : validInit nn kk = false ↔ nn = 0 ∨ 64 < nn ∨ 64 < kk := by
  rw [← Bool.not_eq_true, validInit_iff]
  omega

/-- The machine with the first `n` bytes of its input stream consumed. -/
abbrev State.consumed (s : State) (n : Nat) : State := { s with payloadIn := s.payloadIn.drop n }

/-- The moves of `exec i`. -/
inductive ExecMove (s : State) : Instr → State → Prop
  | wait {i : Instr} (short : s.payloadIn.length < payloadLength i) : ExecMove s i s
  | initOk {nn kk : Nat} (there : kk ≤ s.payloadIn.length) (valid : validInit nn kk = true) :
      ExecMove s (.init nn kk)
        (respond .ok [] { s.consumed kk with hash := startHash nn kk (s.payloadIn.take kk) })
  | initBad {nn kk : Nat} (there : kk ≤ s.payloadIn.length) (invalid : validInit nn kk = false) :
      ExecMove s (.init nn kk) (reject .invalidParameter (s.consumed kk))
  | updateOk {len : Nat} (there : len ≤ s.payloadIn.length) (active : s.hash.phase = .active)
      (fits : s.hash.absorbed + len < 2 ^ 128) :
      ExecMove s (.update len)
        (respond .ok [] { s.consumed len with hash := absorbAll s.hash (s.payloadIn.take len) })
  | updateBad {len : Nat} (there : len ≤ s.payloadIn.length) (inactive : s.hash.phase ≠ .active) :
      ExecMove s (.update len) (reject .invalidState (s.consumed len))
  | finalizeOk (active : s.hash.phase = .active) (fits : s.hash.absorbed < 2 ^ 128) :
      ExecMove s .finalize
        (respond .ok (digestOf s.hash.finish.h s.hash.outlen.val) { s with hash := s.hash.finish })
  | finalizeBad (inactive : s.hash.phase ≠ .active) : ExecMove s .finalize (reject .invalidState s)

/-- A next state of `exec` comes from one of its moves. -/
theorem execMove_of_exec {i : Instr} {s t : State} (h : exec i s = .next t) : ExecMove s i t := by
  cases i with
  | init nn kk =>
    simp only [exec, execInit] at h
    split at h
    · next hp =>
      cases h
      exact .wait (takePayload_eq_none.mp hp)
    · next hp =>
      obtain ⟨hn, rfl, rfl⟩ := takePayload_eq_some.mp hp
      split at h <;> cases h
      · exact .initOk hn ‹_›
      · exact .initBad hn (Bool.eq_false_iff.mpr ‹¬_›)
  | update len =>
    simp only [exec, execUpdate] at h
    split at h
    · next hp =>
      cases h
      exact .wait (takePayload_eq_none.mp hp)
    · next hp =>
      obtain ⟨hn, rfl, rfl⟩ := takePayload_eq_some.mp hp
      split at h
      · split at h <;> cases h
        exact .updateOk hn ‹_› ‹_›
      · cases h
        exact .updateBad hn ‹_›
  | finalize =>
    simp only [exec, execFinalize] at h
    split at h
    · split at h <;> cases h
      exact .finalizeOk ‹_› ‹_›
    · cases h
      exact .finalizeBad ‹_›

/-- A refusal of `exec` is the one of an over-long computation, in phase ACTIVE. -/
theorem exec_refused {i : Instr} {s : State} {r : Refusal} (h : exec i s = .refused r) :
    r = .absorbedTooLong ∧ s.hash.phase = .active ∧ payloadLength i ≤ s.payloadIn.length ∧
      2 ^ 128 ≤ s.hash.absorbed + payloadLength i ∧ ∀ nn kk, i ≠ .init nn kk := by
  cases i with
  | init nn kk =>
    simp only [exec, execInit] at h
    split at h
    · cases h
    · split at h <;> cases h
  | update len =>
    simp only [exec, execUpdate] at h
    split at h
    · cases h
    · next hp =>
      obtain ⟨hn, rfl, rfl⟩ := takePayload_eq_some.mp hp
      split at h
      · split at h <;> cases h
        exact ⟨rfl, ‹_›, hn, Nat.le_of_not_lt ‹¬_ + _ < _›, by simp⟩
      · cases h
  | finalize =>
    simp only [exec, execFinalize] at h
    split at h
    · next ha =>
      split at h
      · cases h
      · next hb =>
        cases h
        exact ⟨rfl, ha, Nat.zero_le _, by simpa only [payloadLength, Nat.add_zero] using Nat.le_of_not_lt hb, by simp⟩
    · cases h

/-- The moves of a step. -/
inductive StepMove (s : State) : State → Prop
  | hold (none : s.commandIn = []) : StepMove s s
  | illegal {w : CommandWord} {rest : List CommandWord} {e : DecodeError} (waiting : s.commandIn = w :: rest)
      (bad : decode w = .error e) : StepMove s (reject .illegalCommand s)
  | command {w : CommandWord} {rest : List CommandWord} {i : Instr} {t : State} (waiting : s.commandIn = w :: rest)
      (good : decode w = .ok i) (move : ExecMove s i t) : StepMove s t

/-- A next state of `step` comes from one of its moves. -/
theorem stepMove_of_step {s t : State} (h : step s = .next t) : StepMove s t := by
  rcases hc : s.commandIn with _ | ⟨w, rest⟩
  · rw [step_of_fetch_none (fetch_nil hc)] at h
    cases h
    exact .hold hc
  · rcases hd : decode w with e | i
    · rw [step_of_fetch_illegal (fetch_illegal hc hd)] at h
      cases h
      exact .illegal hc hd
    · rw [step_of_fetch_command (fetch_command hc hd)] at h
      exact .command hc hd (execMove_of_exec h)

end Sys2Proof.Machine
end

