-- ==== Sys2Proof/Laws/Compression.lean ====
section
/-! SUPPORT. COMPRESS depends on its five inputs alone, and the block it takes on the bytes of `buffer` alone. A proof that
two compressions are equal goes through these lemmas, so that nothing unfolds the twelve rounds. -/

namespace Sys2Proof.Machine

/-- Equal inputs, equal chain values (R85: "a pure function of its five inputs"). -/
theorem compress_congr {h h' : Chain} {b b' : Block} {t0 t0' t1 t1' : Word} {f f' : Bool} (hh : h = h') (hb : b = b')
    (h0 : t0 = t0') (h1 : t1 = t1') (hf : f = f') : compress h b t0 t1 f = compress h' b' t0' t1' f' := by
  rw [hh, hb, h0, h1, hf]

/-- Byte `i` of the block taken from `buffer`. -/
@[simp] theorem getElem_blockOf (m : Memory) (i : Nat) (h : i < 128) : (blockOf m)[i] = readByte m i := by
  simp [blockOf]

/-- A block is its 128 bytes. -/
theorem blockOf_eq_iff {m : Memory} {b : Block} : blockOf m = b ↔ ∀ (i : Nat) (h : i < 128), readByte m i = b[i] := by
  constructor
  · rintro rfl i h
    rw [getElem_blockOf]
  · intro h
    ext1 i hi
    rw [getElem_blockOf, h i hi]

/-- Buffers that read alike give equal blocks. -/
theorem blockOf_congr {m m' : Memory} (h : ∀ i < 128, readByte m i = readByte m' i) : blockOf m = blockOf m' :=
  blockOf_eq_iff.mpr fun i hi => by rw [getElem_blockOf, h i hi]

end Sys2Proof.Machine
end

