-- ==== Sys2Proof/Laws/Encoding.lean ====
section
/-! SUPPORT. The command word as a number: what selecting a row, reading a field and encoding mean in arithmetic (R52 to
R56). -/

namespace Sys2Proof

/-- A field is a quotient and a remainder. -/
theorem wordField_eq (w : CommandWord) (hi lo : Nat) : wordField w hi lo = w.toNat / 2 ^ lo % 2 ^ (hi - lo + 1) := by
  simp only [wordField, BitVec.extractLsb, BitVec.extractLsb'_toNat, Nat.shiftRight_eq_div_pow]

/-- Masking a quotient of a masked number. -/
theorem and_div_pow (a b n : Nat) : (a &&& b) / 2 ^ n = a / 2 ^ n &&& b / 2 ^ n := by
  simp only [← Nat.shiftRight_eq_div_pow, Nat.shiftRight_and_distrib]

/-- The opcode byte and the low byte of a number below `2 ^ 32`, which the mask of INIT keeps. -/
theorem and_initMask {n : Nat} (h : n < 2 ^ 32) : n &&& 0xFF0000FF = n / 2 ^ 24 * 2 ^ 24 + n % 2 ^ 8 := by
  have top : (n &&& 0xFF0000FF) / 2 ^ 24 = n / 2 ^ 24 := by
    rw [and_div_pow, show 0xFF0000FF / 2 ^ 24 = 2 ^ 8 - 1 from rfl, Nat.and_two_pow_sub_one_eq_mod]
    exact Nat.mod_eq_of_lt (by omega)
  have low : (n &&& 0xFF0000FF) % 2 ^ 8 = n % 2 ^ 8 := by
    rw [Nat.and_mod_two_pow, show 0xFF0000FF % 2 ^ 8 = 2 ^ 8 - 1 from rfl, Nat.and_two_pow_sub_one_eq_mod, Nat.mod_mod]
  have mid : (n &&& 0xFF0000FF) / 2 ^ 8 % 2 ^ 16 = 0 := by
    rw [and_div_pow, Nat.and_mod_two_pow, show 0xFF0000FF / 2 ^ 8 % 2 ^ 16 = 0 from rfl, Nat.and_zero]
  omega

/-- The opcode byte of a number below `2 ^ 32`, which the mask of UPDATE keeps. -/
theorem and_updateMask {n : Nat} (h : n < 2 ^ 32) : n &&& 0xFF000000 = n / 2 ^ 24 * 2 ^ 24 := by
  have top : (n &&& 0xFF000000) / 2 ^ 24 = n / 2 ^ 24 := by
    rw [and_div_pow, show 0xFF000000 / 2 ^ 24 = 2 ^ 8 - 1 from rfl, Nat.and_two_pow_sub_one_eq_mod]
    exact Nat.mod_eq_of_lt (by omega)
  have low : (n &&& 0xFF000000) % 2 ^ 24 = 0 := by
    rw [Nat.and_mod_two_pow, show 0xFF000000 % 2 ^ 24 = 0 from rfl, Nat.and_zero]
  omega

theorem initRow_selects (w : CommandWord) :
    initRow.selects w = true ↔ w.toNat / 2 ^ 24 = 1 ∧ w.toNat % 2 ^ 8 = 0 := by
  have h := and_initMask w.isLt
  simp only [OpcodeRow.selects, initRow, beq_iff_eq, ← BitVec.toNat_inj, BitVec.toNat_and, BitVec.toNat_ofNat]
  rw [show 0xFF0000FF % 2 ^ 32 = 0xFF0000FF from rfl, show 0x01000000 % 2 ^ 32 = 0x01000000 from rfl, h]
  omega

theorem updateRow_selects (w : CommandWord) : updateRow.selects w = true ↔ w.toNat / 2 ^ 24 = 2 := by
  have h := and_updateMask w.isLt
  simp only [OpcodeRow.selects, updateRow, beq_iff_eq, ← BitVec.toNat_inj, BitVec.toNat_and, BitVec.toNat_ofNat]
  rw [show 0xFF000000 % 2 ^ 32 = 0xFF000000 from rfl, show 0x02000000 % 2 ^ 32 = 0x02000000 from rfl, h]
  omega

theorem finalizeRow_selects (w : CommandWord) : finalizeRow.selects w = true ↔ w = 0x03000000#32 := by
  have : w &&& 0xFFFFFFFF#32 = w := BitVec.and_allOnes
  simp only [OpcodeRow.selects, finalizeRow, beq_iff_eq, this]

/-- The word of INIT as a number (format I). -/
theorem toNat_encode_init {nn kk : Nat} (hn : nn < 2 ^ 8) (hk : kk < 2 ^ 8) :
    (encode (.init nn kk)).toNat = 2 ^ 24 + nn * 2 ^ 16 + kk * 2 ^ 8 := by
  have e1 : (1 : Nat) <<< 24 ||| nn <<< 16 = (1 <<< 8 + nn) <<< 16 := by
    rw [Nat.shiftLeft_add_eq_or_of_lt hn, Nat.shiftLeft_or_distrib, ← Nat.shiftLeft_add]
  have e2 : ((1 <<< 8 + nn) <<< 8 + kk) <<< 8 = (1 <<< 8 + nn) <<< 16 ||| kk <<< 8 := by
    rw [Nat.shiftLeft_add_eq_or_of_lt hk, Nat.shiftLeft_or_distrib, ← Nat.shiftLeft_add]
  simp only [encode, BitVec.toNat_or, BitVec.toNat_shiftLeft, BitVec.toNat_ofNat]
  rw [show 0x01000000 % 2 ^ 32 = 1 <<< 24 from rfl, Nat.mod_eq_of_lt (show nn < 2 ^ 32 by omega),
    Nat.mod_eq_of_lt (show kk < 2 ^ 32 by omega),
    Nat.mod_eq_of_lt (show nn <<< 16 < 2 ^ 32 by rw [Nat.shiftLeft_eq]; omega),
    Nat.mod_eq_of_lt (show kk <<< 8 < 2 ^ 32 by rw [Nat.shiftLeft_eq]; omega), e1, ← e2]
  simp only [Nat.shiftLeft_eq]
  omega

/-- The word of UPDATE as a number (format U). -/
theorem toNat_encode_update {len : Nat} (h : len < 2 ^ 24) : (encode (.update len)).toNat = 2 * 2 ^ 24 + len := by
  have e : (2 : Nat) <<< 24 ||| len = 2 <<< 24 + len := (Nat.shiftLeft_add_eq_or_of_lt h 2).symm
  simp only [encode, BitVec.toNat_or, BitVec.toNat_ofNat]
  rw [show 0x02000000 % 2 ^ 32 = 2 <<< 24 from rfl, Nat.mod_eq_of_lt (show len < 2 ^ 32 by omega), e]
  rfl

end Sys2Proof
end

