-- ==== Sys2Proof/Laws/PerInstr.lean ====
section
/-! SUPPORT. Statements about every command as syntax, one lemma per command: the encoded word of a well-formed command is
a word of its row of the opcode table (spec/30_encoding.md R53 to R55). -/

namespace Sys2Proof.Laws.EncodedInRow

/-- The word of a well-formed command is selected by the command's own row. -/
def Statement (i : Instr) : Prop := i.wellFormed = true → i.row.selects (encode i) = true

/-- A number below `2 ^ n` has no bit from `n` on. -/
theorem testBit_above {x n : Nat} (h : x < 2 ^ n) (j : Nat) (hj : n ≤ j) : x.testBit j = false :=
  Nat.testBit_lt_two_pow (lt_of_lt_of_le h (Nat.pow_le_pow_right (by decide) hj))

/-- The bits of a number in a command word are its own. -/
theorem bit_ofNat (x i : Nat) (hi : i < 32) : (BitVec.ofNat 32 x)[i] = x.testBit i := by
  rw [← BitVec.getLsbD_eq_getElem, BitVec.getLsbD_ofNat]
  simp [hi]

theorem init (nn kk : Nat) : Statement (.init nn kk) := by
  intro h
  simp only [Instr.wellFormed, Bool.and_eq_true, decide_eq_true_eq] at h
  simp only [OpcodeRow.selects, Instr.row, initRow, encode, beq_iff_eq]
  ext i hi
  interval_cases i <;> simp [bit_ofNat nn, bit_ofNat kk, testBit_above h.1, testBit_above h.2]

theorem update (len : Nat) : Statement (.update len) := by
  intro h
  simp only [Instr.wellFormed, decide_eq_true_eq] at h
  simp only [OpcodeRow.selects, Instr.row, updateRow, encode, beq_iff_eq]
  ext i hi
  interval_cases i <;> simp [bit_ofNat len, testBit_above h]

theorem finalize : Statement .finalize := fun _ => by decide

end Sys2Proof.Laws.EncodedInRow
end

