-- ==== Sys2Proof/Tests/Slice0.lean ====
section
/-! SUPPORT. Tests, each expected result from spec/ (the vector or rule is named), and for every obligation with hypotheses a
witness that meets them, at the ends of the ranges its clauses name. -/

namespace Sys2Proof.Tests

open Sys2Proof.Machine

/-! ### Small states -/

/-- The bytes `00 01 02 …`, `SEQ(n)` of spec/95_test_vectors.md. -/
def seq (n : Nat) : List Byte := (List.range n).map (BitVec.ofNat 8)

/-- A machine in a context, with command words and payload bytes on its channels. -/
def machine (hs : HashState) (words : List CommandWord) (payload : List Byte) : State := ⟨hs, words, payload, []⟩

/-- The context after `init nn, 0`. -/
def fresh (nn : Nat) : HashState := startHash nn 0 []

/-- That context after `n <= 128` bytes `SEQ(n)` have been absorbed. -/
def filled (nn n : Nat) : HashState :=
  { fresh nn with buffer := writeBytes [] 0 (seq n), buflen := Fin.ofNat 129 n }

/-- The context after `init 64, 0` and `n` zero bytes. -/
def level (n : Fin 129) : HashState := { fresh 64 with buflen := n }

/-- A finished context. -/
def spent : HashState := { filled 64 3 with phase := .done }

/-- The next state, if there is one. -/
def nextOf : Host.Outcome State Fault Refusal → Option State
  | .next s => some s
  | .fault _ => none
  | .refused _ => none

/-- A next state with a property, found by evaluation. -/
theorem exists_next {o : Host.Outcome State Fault Refusal} (p : State → Bool) (h : (nextOf o).any p = true) :
    ∃ t, o = .next t ∧ p t = true := by
  cases o with
  | next t => exact ⟨t, rfl, h⟩
  | fault _ => cases h
  | refused _ => cases h

/-- A next state, found by evaluation. -/
theorem runs {o : Host.Outcome State Fault Refusal} (h : (nextOf o).isSome = true) : ∃ t, o = .next t := by
  cases o with
  | next t => exact ⟨t, rfl⟩
  | fault _ => cases h
  | refused _ => cases h

/-- The refusal, if that is the outcome. -/
def refusalOf : Host.Outcome State Fault Refusal → Option Refusal
  | .next _ => none
  | .fault _ => none
  | .refused r => some r

/-- A refusal, found by evaluation. -/
theorem refuses {o : Host.Outcome State Fault Refusal} {r : Refusal} (h : refusalOf o = some r) : o = .refused r := by
  cases o with
  | next _ => cases h
  | fault _ => cases h
  | refused _ => cases h; rfl

/-- The last response of the next state. -/
def answer (o : Host.Outcome State Fault Refusal) : Option Response := (nextOf o).bind (·.responseOut.getLast?)

/-! ### Well-formedness: an ill-formed command for each check, and the ends of the fields (R56) -/

theorem smoke_init_digest_length_too_wide : (Instr.init 256 0).wellFormed = false := by decide
theorem smoke_init_key_length_too_wide : (Instr.init 64 256).wellFormed = false := by decide
theorem smoke_update_length_too_wide : (Instr.update 0x1000000).wellFormed = false := by decide
theorem smoke_widest_fields : (Instr.init 255 255).wellFormed ∧ (Instr.update 0xffffff).wellFormed := by decide

/-! ### Decoding: words written bit by bit from the patterns of R53 to R55, and V19 -/

theorem test_decode_init : decode 0b00000001_00100000_00010000_00000000#32 = .ok (.init 32 16) := by decide
theorem test_decode_update : decode 0b00000010_10000000_00000001_00000011#32 = .ok (.update 0x800103) := by decide
theorem test_decode_finalize : decode 0b00000011_00000000_00000000_00000000#32 = .ok .finalize := by decide
theorem test_decode_key_too_long : decode 0x01404100#32 = .ok (.init 64 65) := by decide
theorem test_decode_longest_update : decode 0x02ffffff#32 = .ok (.update 16777215) := by decide
theorem test_decode_illegal :
    decode 0x014000ff#32 = .error .initFieldNotZero ∧ decode 0x03000001#32 = .error .finalizeFieldNotZero ∧
      decode 0x80400000#32 = .error .unknownOpcode ∧ decode 0xff000000#32 = .error .unknownOpcode := by decide
/-- R53 to R55: no word belongs to two rows, since any two patterns differ in a bit that both masks fix. -/
theorem test_rows_disjoint :
    opcodeTable.Pairwise fun r s => r.mask &&& s.mask &&& (r.pattern ^^^ s.pattern) ≠ 0#32 := by decide
/-- V19, column PAYLEN. -/
theorem test_payload_length :
    payLen 0x01ffff00#32 = 255 ∧ payLen 0x02000080#32 = 128 ∧ payLen 0x03000000#32 = 0 ∧ payLen 0x014000ff#32 = 0 := by
  decide
theorem test_table_word : decodeTableWord 32 0x01404000 = some (.init 64 64) ∧ decodeTableWord 32 0x04000000 = none := by
  decide
/-- The word placed for the next step is the one that step runs: `init 64, 0`. -/
theorem test_fetch_word :
    (nextOf (step (State.reset.withFetchWord 32 0x01400000))).map (·.hash.phase) = some .active := by decide

/-! ### The mixing function and the primitives -/

/-- V12. -/
theorem test_rotations :
    rotr64 0x0123456789abcdef#64 32 = 0x89abcdef01234567#64 ∧ rotr64 0x0123456789abcdef#64 24 = 0xabcdef0123456789#64 ∧
      rotr64 0x0123456789abcdef#64 16 = 0xcdef0123456789ab#64 ∧ rotr64 0x0123456789abcdef#64 63 = 0x02468acf13579bde#64 := by
  decide
/-- V11, row 13. -/
theorem test_mixing_function :
    mixG ⟨0x0123456789abcdef#64, 0xfedcba9876543210#64, 0x0f1e2d3c4b5a6978#64, 0x8796a5b4c3d2e1f0#64⟩
      0x1111111111111111#64 0x2222222222222222#64 =
    ⟨0xe95f405271d7b7c9#64, 0xa6c4a94d586303f4#64, 0xe54e59b99295056d#64, 0x036c3b9cb0b2e750#64⟩ := by decide +kernel
/-- V13. -/
theorem test_load_store :
    load64le #v[0xef#8, 0xcd#8, 0xab#8, 0x89#8, 0x67#8, 0x45#8, 0x23#8, 0x01#8] = 0x0123456789abcdef#64 ∧
      store64le 0x0d4d1c983fa580ba#64 = #v[0xba#8, 0x80#8, 0xa5#8, 0x3f#8, 0x98#8, 0x1c#8, 0x4d#8, 0x0d#8] := by
  decide +kernel
/-- V13: a digest length that is no multiple of 8 cuts a word after its low bytes. -/
theorem test_digest_cut :
    digestOf #v[0x0d4d1c983fa580ba#64, 0xe9f6129fb697276a#64, 0, 0, 0, 0, 0, 0] 12 =
      [0xba#8, 0x80#8, 0xa5#8, 0x3f#8, 0x98#8, 0x1c#8, 0x4d#8, 0x0d#8, 0x6a#8, 0x27#8, 0x97#8, 0xb6#8] := by
  decide +kernel
/-- V13: the block parse. -/
theorem test_block_parse :
    (messageWords (blockOf (writeBytes [] 0 (seq 128))))[1] = 0x0f0e0d0c0b0a0908#64 ∧
      (messageWords (blockOf (writeBytes [] 0 (seq 128))))[15] = 0x7f7e7d7c7b7a7978#64 := by decide +kernel
/-- V14: the carry, and a wrap of the low word alone. -/
theorem test_counter_carry :
    addCounter 0 0xffffffffffffff80#64 128 = (1, 0) ∧ addCounter 0 0xffffffffffffff80#64 127 = (0, 0xffffffffffffffff#64) ∧
      addCounter 5 0xfffffffffffffffd#64 3 = (6, 0) := by decide
/-- V17: `h = IV`, block `SEQ(128)`, `t0 = 0`, `t1 = 1`, `f = 0`. -/
theorem test_compress_high_counter_word :
    compress iv (blockOf (writeBytes [] 0 (seq 128))) 0 1 false =
      #v[0x42a16df892ce4e1d#64, 0xc51e55a4aad2d289#64, 0x049aeb16a4d2d9e0#64, 0x952d43805e49b69e#64,
         0x15458a3febf8d815#64, 0x2ab46f281dd6bf09#64, 0x3663498176766b30#64, 0x13855dad1aec180a#64] := by decide +kernel

/-! ### INIT, UPDATE, FINALIZE -/

/-- V16, `init 64, 64`: `h[0]`, and the key held as a full buffer. -/
theorem test_init_keyed :
    (nextOf (exec (.init 64 64) (machine spent [] (seq 64)))).map
      (fun t => (t.hash.h[0], t.hash.buflen, readByte t.hash.buffer 63, readByte t.hash.buffer 64, t.payloadIn)) =
    some (0x6a09e667f2bd8948#64, 128, 0x3f#8, 0x00#8, []) := by decide +kernel
/-- R64: `init 64, 65` is rejected, its 65 payload bytes consumed, the running computation untouched. -/
theorem test_init_rejected :
    (nextOf (exec (.init 64 65) (machine (filled 64 3) [] (seq 66)))).map (fun t => (t.hash, t.payloadIn, t.responseOut)) =
    some (filled 64 3, [0x41#8], [⟨.invalidParameter, []⟩]) := by decide +kernel
/-- R72: `update "abc"` after `init 64, 0`. -/
theorem test_update_abc :
    (nextOf (exec (.update 3) (machine (fresh 64) [] [0x61#8, 0x62#8, 0x63#8]))).map
      (fun t => (t.hash.buffer, t.hash.buflen, t.hash.t0, t.responseOut)) =
    some ([(0, 0x61#8), (1, 0x62#8), (2, 0x63#8)], 3, 0, [⟨.ok, []⟩]) := by decide +kernel
/-- P3: the 129th byte compresses the held block, with `t0 = 128` and `f = 0`. -/
theorem test_update_held_block :
    (nextOf (exec (.update 1) (machine (filled 32 128) [] [0x80#8]))).map
      (fun t => (t.hash.h[0], t.hash.h[7], t.hash.t0, t.hash.buflen, readByte t.hash.buffer 0)) =
    some (0x12dac38388ccdc21#64, 0x3d8f34c505e0e297#64, 128, 1, 0x80#8) := by decide +kernel
/-- P3: FINALIZE after the 129 bytes, `nn = 32`: the digest's first and last bytes. -/
theorem test_finalize_129_bytes :
    (answer (exec .finalize (machine { filled 32 128 with
        h := #v[0x12dac38388ccdc21#64, 0x97e45bb8e401e5d1#64, 0xfa8850d93bf058eb#64, 0x3431934cee99d642#64,
                0x75aabe1470b6cb92#64, 0xd4ad250c995d8c36#64, 0xa481b0bbedb175f7#64, 0x3d8f34c505e0e297#64]
        t0 := 128
        buflen := 1
        buffer := writeByte (filled 32 128).buffer 0 0x80#8 } [] []))).map
      (fun r => (r.status, r.digest.take 4, r.digest.drop 28)) =
    some (.ok, [0xf7#8, 0xf3#8, 0xc4#8, 0x6b#8], [0xa2#8, 0xf5#8, 0xb9#8, 0xc9#8]) := by decide +kernel
/-- P5: the key block of a keyed empty message is the last block. -/
theorem test_finalize_key_block :
    (nextOf (exec .finalize (machine (startHash 64 64 (seq 64)) [] []))).map
      (fun t => (t.hash.h[0], t.hash.h[7], t.hash.t0, t.hash.buflen)) =
    some (0x8e86b10077b6eb10#64, 0x6815c53fc1cbef7a#64, 128, 128) := by decide +kernel
/-- V20: an illegal word takes no payload and leaves the context. -/
theorem test_illegal_word :
    (nextOf (step (machine (filled 64 3) [0x01400001#32, 0x03000000#32] [0x55#8]))).map
      (fun t => (t.hash, t.commandIn, t.payloadIn, t.responseOut)) =
    some (filled 64 3, [0x03000000#32], [0x55#8], [⟨.illegalCommand, []⟩]) := by decide +kernel
/-- R61. -/
theorem test_status_codes :
    Status.code .ok = 0x00#8 ∧ Status.code .invalidParameter = 0x01#8 ∧ Status.code .invalidState = 0x02#8 ∧
      Status.code .illegalCommand = 0x03#8 := by decide
/-- R63: `hash nn, key, msg` is INIT, UPDATE, FINALIZE. -/
theorem test_assemble_hash :
    (assemble (.hash 64 [0xaa#8] [0x61#8, 0x62#8, 0x63#8])).map Transaction.word =
      [0x01400100#32, 0x02000003#32, 0x03000000#32] ∧
    (assemble (.hash 64 [0xaa#8] [0x61#8, 0x62#8, 0x63#8])).all Transaction.framed := by decide +kernel

/-! ### Witnesses: states and operands that meet the hypotheses of the obligations -/

/-- A running computation of three bytes, with UPDATE of three bytes waiting. -/
def running : State := machine (filled 64 3) [0x02000003#32] [0x61#8, 0x62#8, 0x63#8]

theorem running_inv : running.Inv :=
  ⟨by decide +kernel, by decide, by decide +kernel, by decide, by decide +kernel⟩

theorem witness_DecodeOfEncode : (Instr.init 255 255).wellFormed = true ∧ (Instr.update 0).wellFormed = true ∧
    (Instr.update 0xffffff).wellFormed = true ∧ Instr.finalize.wellFormed = true := by decide

theorem witness_EncodeOfDecode : decode 0x01ffff00#32 = .ok (.init 255 255) ∧ decode 0x02ffffff#32 = .ok (.update 0xffffff) ∧
    decode 0x03000000#32 = .ok .finalize := by decide

theorem witness_IllegalWordsGetIllegalCommand :
    (machine (filled 64 3) [0x04000000#32] []).commandIn = 0x04000000#32 :: [] ∧
      decode 0x04000000#32 = .error .unknownOpcode ∧ decode 0x00ffffff#32 = .error .unknownOpcode ∧
      decode 0x01000001#32 = .error .initFieldNotZero ∧ decode 0x03000001#32 = .error .finalizeFieldNotZero := by decide

theorem witness_StepRunsDecodedCommand :
    running.commandIn = 0x02000003#32 :: [] ∧ decode 0x02000003#32 = .ok (.update 3) := by decide

theorem witness_StepHoldsStateBetweenCommands : (machine (filled 64 3) [] []).commandIn = [] := rfl

theorem witness_StepWaitsForWholePayload :
    (machine (filled 64 3) [0x02000003#32] (seq 2)).commandIn = 0x02000003#32 :: [] ∧
      (machine (filled 64 3) [0x02000003#32] (seq 2)).payloadIn.length < payLen 0x02000003#32 := by decide

/-- Accepted: the least and the greatest digest length, with no key and with the longest key. -/
theorem witness_InitCommandResult_accepted :
    (0 ≤ (machine spent [] []).payloadIn.length ∧ 1 ≤ 1 ∧ 1 ≤ 64 ∧ 0 ≤ 64) ∧
      (64 ≤ (machine spent [] (seq 64)).payloadIn.length ∧ 1 ≤ 64 ∧ 64 ≤ 64 ∧ 64 ≤ 64) := by decide

/-- Rejected: digest length 0, digest length 65, key length 65. -/
theorem witness_InitCommandResult_rejected :
    (0 ≤ (machine spent [] []).payloadIn.length ∧ ¬ (1 ≤ 0 ∧ 0 ≤ 64 ∧ 0 ≤ 64)) ∧
      (0 ≤ (machine spent [] []).payloadIn.length ∧ ¬ (1 ≤ 65 ∧ 65 ≤ 64 ∧ 0 ≤ 64)) ∧
      (65 ≤ (machine spent [] (seq 65)).payloadIn.length ∧ ¬ (1 ≤ 64 ∧ 64 ≤ 64 ∧ 65 ≤ 64)) := by decide

theorem witness_InitialChainFromParameterBlock : (64 : Nat) ≤ 64 ∧ (64 : Nat) ≤ 64 := by decide

theorem witness_KeyIsAbsorbedAsFirstBlock :
    (1 ≤ (seq 1).length ∧ (seq 1).length ≤ 64) ∧ (1 ≤ (seq 64).length ∧ (seq 64).length ≤ 64) := by decide

theorem witness_UpdateCommandResult_active :
    3 ≤ running.payloadIn.length ∧ running.hash.phase = .active ∧ running.hash.absorbed + 3 < 2 ^ 128 := by decide +kernel

theorem witness_UpdateCommandResult_inactive :
    (0 ≤ State.reset.payloadIn.length ∧ State.reset.hash.phase ≠ .active) ∧
      (3 ≤ (machine spent [] (seq 3)).payloadIn.length ∧ (machine spent [] (seq 3)).hash.phase ≠ .active) := by decide

/-- A full buffer, and the last free place of one. -/
theorem witness_AbsorbOneByte :
    ((level 128).buffer.wf ∧ (level 128).buflen.val = 128) ∧
      ((level 127).buffer.wf ∧ (level 127).buflen.val < 128) := by decide +kernel

/-- Exactly to the full buffer. -/
theorem witness_UpdateThatFitsCompressesNothing :
    let s := machine (level 125) [] (seq 3)
    s.hash.buffer.wf ∧ s.hash.phase = .active ∧ 3 ≤ s.payloadIn.length ∧ s.hash.buflen.val + 3 ≤ 128 ∧
      s.hash.absorbed + 3 < 2 ^ 128 := by decide +kernel

/-- From an empty and from a full buffer. -/
theorem witness_UpdateAdvancesCounterByWholeBlocks :
    ((fresh 64).phase = .active ∧ 0 ≤ (machine (fresh 64) [] []).payloadIn.length ∧ (fresh 64).absorbed + 0 < 2 ^ 128) ∧
      ((level 128).phase = .active ∧ 129 ≤ (machine (level 128) [] (seq 129)).payloadIn.length ∧
        (level 128).absorbed + 129 < 2 ^ 128 ∧ 0 < 129) := by decide +kernel

/-- A full buffer and more than a block of bytes, so that offsets are written twice. -/
theorem witness_UpdateWritesOnlyItsOffsets :
    let s := machine (level 128) [] (seq 129)
    s.hash.buffer.wf ∧ s.hash.phase = .active ∧ 129 ≤ s.payloadIn.length ∧ s.hash.absorbed + 129 < 2 ^ 128 ∧
      129 ≤ 1 + 128 ∧ storeOffset s.hash.buflen = 0 := by decide +kernel

theorem witness_SplitUpdateGivesSameState :
    let s := machine (level 127) [] (seq 4)
    s.hash.phase = .active ∧ s.payloadIn = [0x00#8, 0x01#8] ++ [0x02#8] ++ [0x03#8] ∧
      s.hash.absorbed + (2 + 1) < 2 ^ 128 := by decide +kernel

/-- In ACTIVE with an empty and with a full buffer; and in DONE. -/
theorem witness_FinalizeCommandResult :
    ((fresh 1).buffer.wf ∧ (fresh 1).phase = .active ∧ (fresh 1).absorbed < 2 ^ 128) ∧
      ((level 128).buffer.wf ∧ (level 128).phase = .active ∧ (level 128).absorbed < 2 ^ 128) ∧
      (spent.buffer.wf ∧ spent.phase ≠ .active) := by decide +kernel

theorem witness_DigestHasRequestedLength : running.Inv ∧ running.hash.phase = .active := ⟨running_inv, rfl⟩

theorem witness_DigestBytesAreChainBytes : (64 : Nat) ≤ 64 ∧ (63 : Fin 64).val < 64 := by decide

theorem witness_FinalizedContextIsSpent :
    running.hash.phase = .active ∧ ∃ t, exec .finalize running = .next t ∧ decide (3 ≤ t.payloadIn.length) = true :=
  ⟨rfl, exists_next _ (by decide +kernel)⟩

/-- The last word of a buffer with bytes in it. -/
theorem witness_LoadAndStoreAreInverse : (level 128).buffer.wf ∧ 120 + 8 ≤ 128 := by decide +kernel

theorem witness_CounterAddsModulo128Bits : (0 : Nat) ≤ 128 ∧ (128 : Nat) ≤ 128 := by decide

theorem witness_RotationMovesEveryBit :
    ((63 : Nat) = 32 ∨ (63 : Nat) = 24 ∨ (63 : Nat) = 16 ∨ (63 : Nat) = 63) ∧ (0 : Nat) < 64 ∧ (63 : Nat) < 64 := by decide

theorem witness_CallWritesItsFourWords :
    let c := callSchedule[(7 : Fin 8)]
    (15 : Fin 16) ≠ c.a ∧ (15 : Fin 16) ≠ c.b ∧ (15 : Fin 16) ≠ c.c ∧ (15 : Fin 16) ≠ c.d := by decide

theorem witness_CallOrderWithinStepIsFree :
    ([3, 2, 1, 0] : List (Fin 8)).Perm columnCalls ∧ ([6, 4, 7, 5] : List (Fin 8)).Perm diagonalCalls := by decide

/-- Each phase, each command, an INIT with bad parameters and an illegal word. -/
theorem witness_PhaseMachineTable :
    (running.commandIn = 0x02000003#32 :: [] ∧ payLen 0x02000003#32 ≤ running.payloadIn.length) ∧
    (∃ t, step running = .next t) ∧
    (∃ t, step (machine spent [0x02000003#32] (seq 3)) = .next t) ∧
    (∃ t, step (machine HashState.reset [0x03000000#32] []) = .next t) ∧
    (∃ t, step (machine (filled 64 3) [0x03000000#32] []) = .next t) ∧
    (∃ t, step (machine (filled 64 3) [0x01400000#32] []) = .next t) ∧
    (∃ t, step (machine (filled 64 3) [0x01410000#32] []) = .next t) ∧
    (∃ t, step (machine (filled 64 3) [0x04000000#32] []) = .next t) := by
  refine ⟨by decide, ?_, ?_, ?_, ?_, ?_, ?_, ?_⟩ <;> exact runs (by decide +kernel)

/-- A rejected INIT in the middle of a computation. -/
theorem witness_RejectedCommandChangesNothing :
    let s := machine (filled 64 3) [0x01404100#32] (seq 65)
    s.commandIn = 0x01404100#32 :: [] ∧
      ∃ t, step s = .next t ∧ t.responseOut = s.responseOut ++ [⟨.invalidParameter, []⟩] ∧
        Status.invalidParameter ≠ Status.ok :=
  ⟨rfl, _, rfl, rfl, by decide⟩

theorem witness_DigestOnlyFromAcceptedFinalize :
    let s := machine (filled 64 3) [0x03000000#32] []
    s.Inv ∧ s.commandIn = 0x03000000#32 :: [] ∧ payLen 0x03000000#32 ≤ s.payloadIn.length ∧ ∃ t, step s = .next t :=
  ⟨running_inv, rfl, by decide, runs (by decide +kernel)⟩

theorem witness_InvalidParameterOnlyFromInit :
    let s := machine HashState.reset [0x01410000#32] []
    s.commandIn = 0x01410000#32 :: [] ∧
      ∃ t, step s = .next t ∧ t.responseOut = s.responseOut ++ [⟨.invalidParameter, []⟩] :=
  ⟨rfl, _, rfl, rfl⟩

theorem witness_InvalidStateOnlyOutsideActive :
    let s := machine spent [0x03000000#32] []
    s.commandIn = 0x03000000#32 :: [] ∧
      ∃ t, step s = .next t ∧ t.responseOut = s.responseOut ++ [⟨.invalidState, []⟩] :=
  ⟨rfl, _, rfl, rfl⟩

/-- Two computations of three bytes, absorbed and waiting, that are different bytes. -/
theorem witness_NoDataByteCausesAnError :
    let s' := machine { level 3 with h := Vector.replicate 8 0 } [0x02000003#32] [0x00#8, 0xff#8, 0x80#8]
    running.commandIn = s'.commandIn ∧ running.payloadIn.length = s'.payloadIn.length ∧
      running.hash.phase = s'.hash.phase ∧ running.hash.absorbed = s'.hash.absorbed ∧ running ≠ s' ∧
      ∃ t, step running = .next t :=
  ⟨rfl, rfl, rfl, by decide +kernel, by decide +kernel, runs (by decide +kernel)⟩

theorem witness_OnlyInitWritesDigestLength :
    let s := machine (fresh 64) [0x01010000#32] []
    ∃ t, step s = .next t ∧ t.hash.outlen ≠ s.hash.outlen :=
  ⟨_, rfl, by decide⟩

/-- INIT abandons a computation whose counter stands at 128. -/
theorem witness_CounterNeverDecreasesWithinComputation :
    let s := machine { filled 64 1 with t0 := 128 } [0x01400000#32] []
    ∃ t, step s = .next t ∧ t.hash.count < s.hash.count :=
  ⟨_, rfl, by decide⟩

/-- The last byte that fits below 2^128 has been absorbed; one more is refused. -/
theorem witness_OnlyOverlongComputationIsRefused :
    let hs := { level 127 with t1 := 0xffffffffffffffff#64, t0 := 0xffffffffffffff80#64 }
    hs.absorbed = 2 ^ 128 - 1 ∧
      step (machine hs [0x02000001#32] [0x00#8]) = .refused .absorbedTooLong :=
  ⟨by decide +kernel, refuses (by decide +kernel)⟩

theorem witness_StepKeepsInvariant : running.Inv ∧ ∃ t, step running = .next t :=
  ⟨running_inv, runs (by decide +kernel)⟩

/-- Two running computations of one byte that differ in a stale byte. -/
theorem witness_UnspecifiedRegistersNeverShow :
    let s := machine { fresh 64 with buffer := [(0, 0x61#8), (5, 0x11#8)], buflen := 1 } [0x03000000#32] []
    let s' := machine { fresh 64 with buffer := [(0, 0x61#8), (9, 0x22#8)], buflen := 1 } [0x03000000#32] []
    s.Inv ∧ s'.Inv ∧ s.LooksSame s' ∧ s ≠ s' :=
  ⟨⟨by decide, by decide, by decide, by decide, by decide +kernel⟩,
    ⟨by decide, by decide, by decide, by decide, by decide +kernel⟩,
    ⟨⟨rfl, fun _ => ⟨rfl, rfl, rfl, rfl, rfl, by decide⟩⟩, rfl, rfl, rfl⟩, by decide +kernel⟩

/-- A reset that clears the context, and one that leaves it as it was. -/
theorem witness_ResetContentsNeverShow :
    ResetsTo running (machine HashState.reset [] []) ∧ ResetsTo running (machine { filled 64 3 with phase := .idle } [] []) :=
  ⟨⟨rfl, by decide, rfl, rfl, rfl⟩, ⟨rfl, by decide, rfl, rfl, rfl⟩⟩

/-- A computation in one context, and an INIT in the other. -/
theorem witness_ContextsAreIndependent :
    let cs : Contexts 2 := #v[running, machine HashState.reset [0x01400000#32] []]
    (0 : Fin 2) ≠ 1 ∧ (∃ s, step cs[(0 : Fin 2)] = .next s) ∧ ∃ s, step cs[(1 : Fin 2)] = .next s :=
  ⟨by decide, runs (by decide +kernel), runs (by decide +kernel)⟩

theorem witness_LongUpdateExpandsInOrder : (updateTransactions (seq 3)).map Transaction.word = [0x02000003#32] := by
  decide +kernel

/-- A keyed computation of an empty and a full chunk, started from a context that is in the middle of another. -/
theorem witness_ComputationReturnsOneShotDigest :
    let s := machine (filled 64 3) [] []
    let chunks := [[], seq 128]
    s.commandIn = [] ∧ s.payloadIn = [] ∧ 1 ≤ 1 ∧ 1 ≤ 64 ∧ (seq 64).length ≤ 64 ∧
      (∀ c ∈ chunks, c.length ≤ Config.lenMax) ∧ (absorbedData (seq 64) chunks.flatten).length < 2 ^ 128 := by
  decide +kernel

end Sys2Proof.Tests
end

section
/-! What a step can do, in the other direction than `execMove_of_exec` and `stepMove_of_step`: every move is made, the one
refusal is given; and what the moves do to the context alone. -/

namespace Sys2Proof.Machine

/-- A payload that is all there is taken. -/
theorem takePayload_of_le {n : Nat} {s : State} (h : n ≤ s.payloadIn.length) :
    takePayload n s = some (s.payloadIn.take n, s.consumed n) :=
  takePayload_eq_some.mpr ⟨h, rfl, rfl⟩

/-- `exec` makes each of its moves. -/
theorem exec_of_execMove {i : Instr} {s t : State} (h : ExecMove s i t) : exec i s = .next t := by
  cases h with
  | wait short =>
    cases i with
    | init nn kk => simp only [exec, execInit, takePayload_eq_none (n := kk).mpr short]
    | update len => simp only [exec, execUpdate, takePayload_eq_none (n := len).mpr short]
    | finalize => exact absurd short (Nat.not_lt_zero _)
  | initOk there valid => simp [exec, execInit, takePayload_of_le there, valid]
  | initBad there invalid => simp [exec, execInit, takePayload_of_le there, invalid]
  | updateOk there active fits => simp [exec, execUpdate, takePayload_of_le there, active, fits]
  | updateBad there inactive => simp [exec, execUpdate, takePayload_of_le there, inactive]
  | finalizeOk active fits => simp only [exec, execFinalize, if_pos active, if_pos fits, finish_outlen]
  | finalizeBad inactive => simp only [exec, execFinalize, if_neg inactive]

/-- `exec` refuses an UPDATE or a FINALIZE that would bring a running computation to 2^128 bytes (D14). -/
theorem exec_of_overlong {i : Instr} {s : State} (active : s.hash.phase = .active)
    (there : payloadLength i ≤ s.payloadIn.length) (long : 2 ^ 128 ≤ s.hash.absorbed + payloadLength i)
    (notInit : ∀ nn kk, i ≠ .init nn kk) : exec i s = .refused .absorbedTooLong := by
  cases i with
  | init nn kk => exact absurd rfl (notInit nn kk)
  | update len =>
    have noFit : ¬ s.hash.absorbed + len < Config.absorbedBound := Nat.not_lt.mpr long
    simp only [exec, execUpdate, takePayload_of_le (n := len) there, if_pos active, if_neg noFit]
  | finalize =>
    rw [payloadLength, Nat.add_zero] at long
    simp only [exec, execFinalize, if_pos active, if_neg (Nat.not_lt.mpr long)]

/-- The machine makes each of its moves. -/
theorem step_of_stepMove {s t : State} (h : StepMove s t) : step s = .next t := by
  cases h with
  | hold none => exact step_of_fetch_none (fetch_nil none)
  | illegal waiting bad => exact step_of_fetch_illegal (fetch_illegal waiting bad)
  | command waiting good move =>
    rw [step_of_fetch_command (fetch_command waiting good)]
    exact exec_of_execMove move

/-- A refusal of a step is a refusal of the command it runs. -/
theorem exec_of_step_refused {s : State} {r : Refusal} (h : step s = .refused r) :
    ∃ w rest i, s.commandIn = w :: rest ∧ decode w = .ok i ∧ exec i s = .refused r := by
  rcases hc : s.commandIn with _ | ⟨w, rest⟩
  · rw [step_of_fetch_none (fetch_nil hc)] at h
    cases h
  · rcases hd : decode w with e | i
    · rw [step_of_fetch_illegal (fetch_illegal hc hd)] at h
      cases h
    · rw [step_of_fetch_command (fetch_command hc hd)] at h
      exact ⟨w, rest, i, rfl, hd, h⟩

/-- What a step can do to the context: nothing, an accepted INIT, an UPDATE or a FINALIZE of a running computation. -/
inductive ContextMove (s : State) : HashState → Prop
  | keep : ContextMove s s.hash
  | start {w : CommandWord} {nn kk : Nat} (waiting : s.commandIn.head? = some w) (good : decode w = .ok (.init nn kk))
      (valid : validInit nn kk = true) (there : kk ≤ s.payloadIn.length) :
      ContextMove s (startHash nn kk (s.payloadIn.take kk))
  | absorb (data : List Byte) (active : s.hash.phase = .active) (fits : s.hash.absorbed + data.length < 2 ^ 128) :
      ContextMove s (absorbAll s.hash data)
  | finish (active : s.hash.phase = .active) (fits : s.hash.absorbed < 2 ^ 128) : ContextMove s s.hash.finish

/-- The context after a step comes from one of these moves. -/
theorem contextMove_of_step {s t : State} (h : step s = .next t) : ContextMove s t.hash := by
  cases stepMove_of_step h with
  | hold => exact .keep
  | illegal => exact .keep
  | command waiting good move =>
    cases move with
    | wait => exact .keep
    | initOk there valid => exact .start (by rw [waiting]; rfl) good valid there
    | initBad => exact .keep
    | updateOk there active fits => exact .absorb _ active (by rwa [List.length_take_of_le there])
    | updateBad => exact .keep
    | finalizeOk active fits => exact .finish active fits
    | finalizeBad => exact .keep

end Sys2Proof.Machine
end

section
/-! The invariant of R23: kept by one ABSORB, by any number, by INIT and by FINALIZE, hence by every step. -/

namespace Sys2Proof.Machine

/-- INIT starts the counter at 0 (R67). -/
@[simp] theorem startHash_count (nn kk : Nat) (key : List Byte) : (startHash nn kk key).count = 0 := by
  simp [HashState.count, counterValue]

/-- An accepted INIT leads to the invariant, whatever was before (R70). -/
theorem startHash_inv {nn kk : Nat} {key : List Byte} (valid : validInit nn kk = true) (hkey : key.length ≤ kk) :
    (startHash nn kk key).Inv := by
  obtain ⟨hpos, hmax, hkk⟩ := validInit_iff.mp valid
  refine ⟨startHash_wf nn kk (by omega), fun _ => ?_, fun _ => ?_, fun _ _ => startHash_count nn kk key, fun _ => ?_⟩
  · simp only [startHash_outlen, Fin.ofNat]
    omega
  · rw [startHash_count]
    exact dvd_zero _
  · have := (startHash nn kk key).buflen.isLt
    rw [absorbed_eq, startHash_count, Config.absorbedBound]
    omega

/-- One ABSORB of a running computation keeps the invariant. -/
theorem absorb_inv {hs : HashState} (h : hs.Inv) (active : hs.phase = .active) (fits : hs.absorbed + 1 < 2 ^ 128)
    (b : Byte) : (absorb hs b).Inv := by
  refine ⟨absorb_wf h.buffer_wf b, fun _ => ?_, fun _ => ?_, fun _ hempty => ?_, fun _ => ?_⟩
  · rw [absorb_outlen]
    exact h.outlen_pos (by rw [active]; decide)
  · rw [absorb_count (by omega)]
    refine Nat.dvd_add (h.count_blocks active) ?_
    split <;> decide
  · rw [absorb_buflen] at hempty
    omega
  · rw [absorb_absorbed (by omega)]
    exact fits

/-- Absorbing any number of bytes in a running computation keeps the invariant. -/
theorem absorbAll_inv {hs : HashState} {d : List Byte} (h : hs.Inv) (active : hs.phase = .active)
    (fits : hs.absorbed + d.length < 2 ^ 128) : (absorbAll hs d).Inv := by
  induction d generalizing hs with
  | nil => exact h
  | cons b d ih =>
    rw [List.length_cons] at fits
    have hone : hs.absorbed + 1 < 2 ^ 128 := by omega
    exact ih (absorb_inv h active hone b) (by rw [absorb_phase, active])
      (by rw [absorb_absorbed (by omega)]; omega)

/-- FINALIZE of a running computation keeps the invariant: in DONE only the buffer and the digest length count. -/
theorem finish_inv {hs : HashState} (h : hs.Inv) (active : hs.phase = .active) : hs.finish.Inv where
  buffer_wf := pad_wf h.buffer_wf
  outlen_pos _ := h.outlen_pos (by rw [active]; decide)
  count_blocks hdone := absurd hdone (by simp)
  empty_start hdone := absurd hdone (by simp)
  in_contract hdone := absurd hdone (by simp)

/-- In IDLE only the canonical form of the buffer counts. -/
theorem inv_of_idle {hs : HashState} (idle : hs.phase = .idle) (hwf : hs.buffer.wf) : hs.Inv where
  buffer_wf := hwf
  outlen_pos hne := absurd idle hne
  count_blocks hact := absurd hact (by simp [idle])
  empty_start hact := absurd hact (by simp [idle])
  in_contract hact := absurd hact (by simp [idle])

/-- Each of the four things a step can do to the context keeps the invariant. -/
theorem contextMove_inv {s : State} {hs : HashState} (h : s.hash.Inv) (move : ContextMove s hs) : hs.Inv := by
  cases move with
  | keep => exact h
  | start _ _ valid _ => exact startHash_inv valid (List.length_take_le _ _)
  | absorb data active fits => exact absorbAll_inv h active fits
  | finish active _ => exact finish_inv h active

/-- Settles O43, by the four things a step can do to the context. -/
theorem stepKeepsInvariant : Obligations.StepKeepsInvariant := fun _ _ h hstep =>
  contextMove_inv h (contextMove_of_step hstep)

/-- Settles O44: after reset the machine is in IDLE. -/
theorem resetMeetsInvariant : Obligations.ResetMeetsInvariant := inv_of_idle rfl reset_buffer_wf

/-- Settles O45, by the definition of the state after reset. -/
theorem resetStateIsIdle : Obligations.ResetStateIsIdle := ⟨rfl, rfl, rfl, rfl⟩

end Sys2Proof.Machine
end

section
/-! What the spec leaves unspecified never shows: `LooksSame` is kept by every operation on a context, by every command, by
every step, hence by every run. -/

namespace Sys2Proof.Machine

/-- A full buffer is compressed as a non-final block, the counter advanced before it, and then counts as empty (R73). -/
theorem makeRoom_of_full {hs : HashState} (full : hs.buflen.val = 128) :
    hs.makeRoom = { (hs.advance 128).compressBuffer false with buflen := 0 } := if_pos full

/-- With room in the buffer nothing happens before the byte is stored (R73). -/
theorem makeRoom_of_ne {hs : HashState} (room : hs.buflen.val ≠ 128) : hs.makeRoom = hs := if_neg room

section Contexts
variable {a b : HashState}

/-- Every context looks like itself. -/
theorem HashState.LooksSame.refl (a : HashState) : a.LooksSame a :=
  ⟨rfl, fun _ => ⟨rfl, rfl, rfl, rfl, rfl, fun _ _ => rfl⟩⟩

/-- Outside ACTIVE the phase is all that counts. -/
theorem HashState.LooksSame.of_inactive (phase : a.phase = b.phase) (inactive : a.phase ≠ .active) : a.LooksSame b :=
  ⟨phase, fun active => absurd active inactive⟩

/-- Whatever FINALIZE leaves looks the same (R78). -/
theorem finish_looksSame (a b : HashState) : a.finish.LooksSame b.finish := .of_inactive rfl (by simp)

variable (same : a.LooksSame b) (active : a.phase = .active)
include same active

/-- The number of absorbed bytes counts. -/
theorem HashState.LooksSame.absorbed_eq : a.absorbed = b.absorbed := by
  obtain ⟨-, h0, h1, hlen, -, -⟩ := same.2 active
  simp only [HashState.absorbed, HashState.count, h0, h1, hlen]

/-- Making room reads the chain value, the counter and, of a full buffer, all 128 bytes, which are all below the fill
level. -/
theorem makeRoom_looksSame : a.makeRoom.LooksSame b.makeRoom := by
  obtain ⟨hh, h0, h1, hlen, hout, hbytes⟩ := same.2 active
  by_cases full : a.buflen.val = 128
  · have hblock : blockOf a.buffer = blockOf b.buffer := blockOf_congr fun i hi => hbytes i (by omega)
    rw [makeRoom_of_full full, makeRoom_of_full (hlen ▸ full)]
    refine ⟨same.1, fun _ => ⟨?_, ?_, ?_, rfl, hout, fun i hi => absurd hi (Nat.not_lt_zero i)⟩⟩
    · exact compress_congr hh hblock (by simp [h0, h1]) (by simp [h0, h1]) rfl
    · simp [h0, h1]
    · simp [h0, h1]
  · rwa [makeRoom_of_ne full, makeRoom_of_ne (hlen ▸ full)]

/-- ABSORB of the same byte: the byte stored extends the part of the buffer that counts by itself alone. -/
theorem absorb_looksSame (ha : a.buffer.wf) (hb : b.buffer.wf) (x : Byte) : (absorb a x).LooksSame (absorb b x) := by
  obtain ⟨-, -, -, hlen, hout, -⟩ := same.2 active
  obtain ⟨hh, h0, h1, -, -, hbytes⟩ := (makeRoom_looksSame same active).2 (by rw [makeRoom_phase, active])
  refine ⟨by simp [same.1], fun _ => ⟨hh, h0, h1, ?_, by simp [hout], fun i hi => ?_⟩⟩
  · exact Fin.ext (by rw [absorb_buflen, absorb_buflen, hlen])
  · rw [absorb_buflen] at hi
    rw [absorb_buffer, absorb_buffer, readByte_writeByte ha, readByte_writeByte hb, ← hlen]
    split
    · rfl
    · simpa using hbytes i (by rw [makeRoom_buflen]; omega)

/-- FINALIZE compresses the same block: the padding covers every byte that does not count (R76). -/
theorem finish_h_eq (ha : a.buffer.wf) (hb : b.buffer.wf) : a.finish.h = b.finish.h := by
  obtain ⟨hh, h0, h1, hlen, -, hbytes⟩ := same.2 active
  have hpad : ∀ i < 128, readByte a.pad.buffer i = readByte b.pad.buffer i := fun i hi => by
    have hmax := a.buflen.isLt
    have hfit : a.buflen.val + (List.replicate (128 - a.buflen.val) 0#8).length ≤ 128 := by
      rw [List.length_replicate]; omega
    rw [pad_buffer, pad_buffer, ← hlen, readByte_writeBytes ha hfit, readByte_writeBytes hb hfit, List.length_replicate]
    split
    · rfl
    · exact hbytes i (by omega)
  exact compress_congr hh (blockOf_congr hpad) (by simp [h0, h1, hlen]) (by simp [h0, h1, hlen]) rfl

end Contexts

/-- Absorbing the same bytes. -/
theorem absorbAll_looksSame {a b : HashState} {d : List Byte} (same : a.LooksSame b) (active : a.phase = .active)
    (ha : a.buffer.wf) (hb : b.buffer.wf) : (absorbAll a d).LooksSame (absorbAll b d) := by
  induction d generalizing a b with
  | nil => exact same
  | cons x d ih =>
    exact ih (absorb_looksSame same active ha hb x) (by rw [absorb_phase, active]) (absorb_wf ha x) (absorb_wf hb x)

section Machines
variable {s s' : State}

/-- Answering alike, with the same input stream left and contexts that look the same. -/
theorem respond_looksSame (same : s.LooksSame s') {a b : HashState} (ctx : a.LooksSame b) {p p' : List Byte}
    (hp : p = p') (st : Status) {d d' : List Byte} (hd : d = d') :
    (respond st d ⟨a, s.commandIn, p, s.responseOut⟩).LooksSame
      (respond st d' ⟨b, s'.commandIn, p', s'.responseOut⟩) := by
  obtain ⟨-, hcmd, -, hresp⟩ := same
  exact ⟨ctx, congrArg List.tail hcmd, hp, by simp [hresp, hd]⟩

/-- A refused step is refused by a machine that looks the same: the refusal rests on the phase, the number of absorbed
bytes and the channels. -/
theorem step_refused_looksSame (same : s.LooksSame s') {r : Refusal} (h : step s = .refused r) : step s' = .refused r := by
  obtain ⟨ctx, hcmd, hpay, -⟩ := same
  obtain ⟨w, rest, i, waiting, good, hexec⟩ := exec_of_step_refused h
  obtain ⟨rfl, active, there, long, notInit⟩ := exec_refused hexec
  rw [step_of_fetch_command (fetch_command (hcmd ▸ waiting) good)]
  exact exec_of_overlong (ctx.1 ▸ active) (hpay ▸ there) (ctx.absorbed_eq active ▸ long) notInit

variable (hs : s.Inv) (hs' : s'.Inv) (same : s.LooksSame s')
include hs hs' same

/-- Each move of a command is matched by the same move of a machine that looks the same. -/
theorem execMove_looksSame {i : Instr} {t : State} (move : ExecMove s i t) :
    ∃ t', ExecMove s' i t' ∧ t.LooksSame t' := by
  have ⟨ctx, _, hpay, _⟩ := same
  have hphase := ctx.1
  have hdrop (n : Nat) : s.payloadIn.drop n = s'.payloadIn.drop n := by rw [hpay]
  cases move with
  | wait short => exact ⟨s', .wait (hpay ▸ short), same⟩
  | initOk there valid =>
    exact ⟨_, .initOk (hpay ▸ there) valid, respond_looksSame same (hpay ▸ .refl _) (hdrop _) .ok rfl⟩
  | initBad there invalid =>
    exact ⟨_, .initBad (hpay ▸ there) invalid, respond_looksSame same ctx (hdrop _) .invalidParameter rfl⟩
  | updateOk there active fits =>
    refine ⟨_, .updateOk (hpay ▸ there) (hphase ▸ active) (ctx.absorbed_eq active ▸ fits), ?_⟩
    exact respond_looksSame same (hpay ▸ absorbAll_looksSame ctx active hs.buffer_wf hs'.buffer_wf) (hdrop _) .ok rfl
  | updateBad there inactive =>
    exact ⟨_, .updateBad (hpay ▸ there) (hphase ▸ inactive), respond_looksSame same ctx (hdrop _) .invalidState rfl⟩
  | finalizeOk active fits =>
    refine ⟨_, .finalizeOk (hphase ▸ active) (ctx.absorbed_eq active ▸ fits), ?_⟩
    obtain ⟨-, -, -, -, hout, -⟩ := ctx.2 active
    refine respond_looksSame same (finish_looksSame s.hash s'.hash) hpay .ok ?_
    rw [finish_h_eq ctx active hs.buffer_wf hs'.buffer_wf, hout]
  | finalizeBad inactive =>
    exact ⟨_, .finalizeBad (hphase ▸ inactive), respond_looksSame same ctx hpay .invalidState rfl⟩

/-- Each step is matched by a step of a machine that looks the same. -/
theorem step_next_looksSame {t : State} (h : step s = .next t) : ∃ t', step s' = .next t' ∧ t.LooksSame t' := by
  have ⟨ctx, hcmd, hpay, _⟩ := same
  cases stepMove_of_step h with
  | hold none => exact ⟨s', step_of_stepMove (.hold (hcmd ▸ none)), same⟩
  | illegal waiting bad =>
    exact ⟨_, step_of_stepMove (.illegal (hcmd ▸ waiting) bad), respond_looksSame same ctx hpay .illegalCommand rfl⟩
  | command waiting good move =>
    obtain ⟨t', move', same'⟩ := execMove_looksSame hs hs' same move
    exact ⟨t', step_of_stepMove (.command (hcmd ▸ waiting) good move'), same'⟩

end Machines

/-- Settles O46, by induction on the number of steps: a step of two machines that look the same leads to two that look the
same and meet the invariant again. -/
theorem unspecifiedRegistersNeverShow : Obligations.UnspecifiedRegistersNeverShow := by
  intro k
  induction k with
  | zero => exact fun _ _ _ _ same => same
  | succ k ih =>
    intro s s' hs hs' same
    cases hstep : step s with
    | next t =>
      obtain ⟨t', hstep', same'⟩ := step_next_looksSame hs hs' same hstep
      rw [run_of_next hstep, run_of_next hstep']
      exact ih t t' (stepKeepsInvariant s t hs hstep) (stepKeepsInvariant s' t' hs' hstep') same'
    | fault f => nomatch f
    | refused r =>
      rw [run_of_refused hstep, run_of_refused (step_refused_looksSame same hstep)]
      rfl

/-- What a reset leaves looks the same as anything else it may leave, and so it does with transactions behind it. -/
theorem submit_looksSame_of_resetsTo {s a b : State} (ha : ResetsTo s a) (hb : ResetsTo s b) (ts : List Transaction) :
    (submit ts a).LooksSame (submit ts b) := by
  obtain ⟨hpa, -, hca, hia, hra⟩ := ha
  obtain ⟨hpb, -, hcb, hib, hrb⟩ := hb
  refine ⟨.of_inactive (hpa.trans hpb.symm) (by simp [hpa]), ?_, ?_, hra.trans hrb.symm⟩
  · simp [hca, hcb]
  · simp [hia, hib]

/-- A reset leads to the invariant, and the host's transactions leave the context alone. -/
theorem submit_inv_of_resetsTo {s a : State} (h : ResetsTo s a) (ts : List Transaction) : (submit ts a).Inv :=
  inv_of_idle h.1 h.2.1

/-- Settles O47: two results of a reset look the same, so O46 applies. -/
theorem resetContentsNeverShow : Obligations.ResetContentsNeverShow := fun _ _ _ ts k ha hb =>
  unspecifiedRegistersNeverShow k _ _ (submit_inv_of_resetsTo ha ts) (submit_inv_of_resetsTo hb ts)
    (submit_looksSame_of_resetsTo ha hb ts)

end Sys2Proof.Machine
end

section
/-! What the steps of a computation keep: the digest length and the order of the counter. -/

namespace Sys2Proof.Machine

/-- Absorbing never lowers the counter, below the bound of D14. -/
theorem count_le_absorbAll {hs : HashState} {d : List Byte} (fits : hs.absorbed + d.length < 2 ^ 128) :
    hs.count ≤ (absorbAll hs d).count := by
  induction d generalizing hs with
  | nil => exact Nat.le_refl _
  | cons b d ih =>
    rw [List.length_cons] at fits
    have hone : hs.absorbed < 2 ^ 128 := by omega
    calc hs.count ≤ (absorb hs b).count := by rw [absorb_count hone]; exact Nat.le_add_right _ _
      _ ≤ (absorbAll (absorb hs b) d).count := ih (by rw [absorb_absorbed hone]; omega)

/-- FINALIZE brings the counter to the number of absorbed bytes (R75). -/
theorem finish_count {hs : HashState} (fits : hs.absorbed < 2 ^ 128) : hs.finish.count = hs.absorbed :=
  addCounter_value (Nat.le_of_lt_succ hs.buflen.isLt) fits

/-- Settles O40: of the things a step can do to the context only an accepted INIT writes the digest length. -/
theorem onlyInitWritesDigestLength : Obligations.OnlyInitWritesDigestLength := by
  intro s t hstep hne
  have move := contextMove_of_step hstep
  generalize t.hash = hs at move hne ⊢
  cases move with
  | keep => exact absurd rfl hne
  | @start w nn kk waiting good valid _ =>
    obtain ⟨hpos, hmax, -⟩ := validInit_iff.mp valid
    have hval (key : List Byte) : (startHash nn kk key).outlen.val = nn := Nat.mod_eq_of_lt (by omega)
    rw [hval]
    exact ⟨w, kk, waiting, good, hpos, hmax⟩
  | absorb data _ _ => exact absurd (absorbAll_outlen _ data) hne
  | finish _ _ => exact absurd (finish_outlen _) hne

/-- Settles O41: UPDATE and FINALIZE only raise the counter, so a step that lowers it is an accepted INIT. -/
theorem counterNeverDecreasesWithinComputation : Obligations.CounterNeverDecreasesWithinComputation := by
  intro s t hstep hlt
  have move := contextMove_of_step hstep
  generalize t.hash = hs at move hlt ⊢
  cases move with
  | keep => exact absurd hlt (Nat.lt_irrefl _)
  | start waiting good valid _ =>
    exact ⟨startHash_count _ _ _, startHash_phase _ _ _, _, _, _, waiting, good, valid⟩
  | absorb data _ fits => exact absurd hlt (Nat.not_lt.mpr (count_le_absorbAll fits))
  | finish _ fits =>
    rw [finish_count fits, absorbed_eq] at hlt
    omega

end Sys2Proof.Machine
end

section
/-! The buffer under UPDATE: bytes that fit are appended, and any number of bytes go round the 128 offsets. -/

namespace Sys2Proof.Machine

/-- With room in the buffer the byte is appended and nothing else changes (R73). -/
theorem absorb_of_lt {hs : HashState} (room : hs.buflen.val < 128) (b : Byte) :
    absorb hs b =
      { hs with buffer := writeByte hs.buffer hs.buflen.val b, buflen := Fin.ofNat 129 (hs.buflen.val + 1) } := by
  have hoff : storeOffset hs.buflen = hs.buflen.val := Nat.mod_eq_of_lt room
  rw [absorb, makeRoom_of_ne (Nat.ne_of_lt room), hoff]

/-- Bytes that fit into the buffer, up to exactly 128, are appended and nothing else changes (R14, R72, R141). -/
theorem absorbAll_of_fits {hs : HashState} {d : List Byte} (fits : hs.buflen.val + d.length ≤ 128) :
    absorbAll hs d =
      { hs with
        buffer := writeBytes hs.buffer hs.buflen.val d
        buflen := Fin.ofNat 129 (hs.buflen.val + d.length) } := by
  induction d generalizing hs with
  | nil => simp [absorbAll_nil, writeBytes]
  | cons b d ih =>
    rw [List.length_cons] at fits ⊢
    have hlen : (absorb hs b).buflen.val = hs.buflen.val + 1 := by
      rw [absorb_of_lt (by omega)]
      exact Nat.mod_eq_of_lt (by omega)
    rw [absorbAll_cons, ih (by omega), hlen, absorb_of_lt (by omega), writeBytes, Nat.add_right_comm, Nat.add_assoc]

/-- The offset of the byte after the next: the offsets go round the buffer (R31). -/
theorem storeOffset_absorb (hs : HashState) (b : Byte) :
    storeOffset (absorb hs b).buflen = (storeOffset hs.buflen + 1) % 128 := by
  rw [storeOffset, absorb_buflen]

/-- Every offset that none of the bytes goes to reads as before. -/
theorem readByte_absorbAll_of_ne {hs : HashState} {d : List Byte} (hwf : hs.buffer.wf) {a : Nat}
    (untouched : ∀ k < d.length, (storeOffset hs.buflen + k) % 128 ≠ a) :
    readByte (absorbAll hs d).buffer a = readByte hs.buffer a := by
  induction d generalizing hs with
  | nil => rfl
  | cons b d ih =>
    have hoff := storeOffset_lt hs.buflen
    have hfirst := untouched 0 (by simp)
    have hrest : ∀ k < d.length, (storeOffset (absorb hs b).buflen + k) % 128 ≠ a := fun k hk => by
      have := untouched (k + 1) (by simpa using hk)
      rw [storeOffset_absorb]
      omega
    rw [absorbAll_cons, ih (absorb_wf hwf b) hrest, absorb_buffer, readByte_writeByte hwf, if_neg (by omega)]

/-- Of the last 128 bytes each is still there: no later byte goes to its offset. -/
theorem readByte_absorbAll_of_last {hs : HashState} {d : List Byte} (hwf : hs.buffer.wf) {k : Nat} (hk : k < d.length)
    (last : d.length ≤ k + 128) :
    readByte (absorbAll hs d).buffer ((storeOffset hs.buflen + k) % 128) = d.getD k 0#8 := by
  induction d generalizing hs k with
  | nil => exact absurd hk (Nat.not_lt_zero k)
  | cons b d ih =>
    rw [List.length_cons] at hk last
    have hoff := storeOffset_lt hs.buflen
    rw [absorbAll_cons]
    cases k with
    | zero =>
      have hself : (storeOffset hs.buflen + 0) % 128 = storeOffset hs.buflen := Nat.mod_eq_of_lt hoff
      have huntouched : ∀ j < d.length, (storeOffset (absorb hs b).buflen + j) % 128 ≠ storeOffset hs.buflen :=
        fun j hj => by rw [storeOffset_absorb]; omega
      rw [hself, readByte_absorbAll_of_ne (absorb_wf hwf b) huntouched, absorb_buffer, readByte_writeByte hwf,
        if_pos rfl, List.getD_cons_zero]
    | succ k =>
      have hnext : (storeOffset hs.buflen + (k + 1)) % 128 = (storeOffset (absorb hs b).buflen + k) % 128 := by
        rw [storeOffset_absorb]; omega
      rw [hnext, ih (absorb_wf hwf b) (by omega) (by omega), List.getD_cons_succ]

/-- A byte of the payload taken is that byte of the input stream. -/
theorem getD_take_of_lt {l : List Byte} {n k : Nat} (h : k < n) : (l.take n).getD k 0#8 = l.getD k 0#8 := by
  rw [List.getD_eq_getElem?_getD, List.getElem?_take_of_lt h, ← List.getD_eq_getElem?_getD]

/-- Settles O14: bytes that fit are appended. -/
theorem updateThatFitsCompressesNothing : Obligations.UpdateThatFitsCompressesNothing := by
  intro len s hwf active there room fits
  have hlen : (s.payloadIn.take len).length = len := List.length_take_of_le there
  refine ⟨_, exec_of_execMove (.updateOk there active fits), ?_⟩
  simp only [respond_hash]
  rw [absorbAll_of_fits (by omega), hlen]
  refine ⟨rfl, rfl, rfl, rfl, active, Nat.mod_eq_of_lt (by omega), fun a => ?_⟩
  rw [readByte_writeBytes hwf (by omega), hlen]
  split
  · exact getD_take_of_lt (by omega)
  · rfl

/-- Settles O16, by induction on the payload: the frame, then the last byte to go to an offset. -/
theorem updateWritesOnlyItsOffsets : Obligations.UpdateWritesOnlyItsOffsets := by
  intro len s hwf active there fits
  have hlen : (s.payloadIn.take len).length = len := List.length_take_of_le there
  refine ⟨_, exec_of_execMove (.updateOk there active fits), absorbAll_outlen _ _, absorbAll_phase _ _, rfl, rfl,
    fun a untouched => ?_, fun k hk last => ?_⟩
  · exact readByte_absorbAll_of_ne hwf (by rwa [hlen])
  · rw [← getD_take_of_lt hk]
    exact readByte_absorbAll_of_last hwf (by omega) (by omega)

end Sys2Proof.Machine
end

section
/-! Several contexts: a step of one is a write of one entry. -/

namespace Sys2Proof.Machine

/-- A step of context `k` replaces it by what its own step makes of it, and touches no other. -/
theorem stepContext_eq_next {n : Nat} {k : Fin n} {cs cs' : Contexts n} :
    stepContext k cs = .next cs' ↔ ∃ s, step cs[k] = .next s ∧ cs' = cs.set k s := by
  unfold stepContext
  cases step cs[k] <;> simp [eq_comm]

/-- Settles O48: the two steps write different entries, and each reads only its own. -/
theorem contextsAreIndependent : Obligations.ContextsAreIndependent := by
  intro n cs cs₁ cs₂ i j hne h₁ h₂
  obtain ⟨s, hs, rfl⟩ := stepContext_eq_next.mp h₁
  obtain ⟨t, ht, rfl⟩ := stepContext_eq_next.mp h₂
  have hval : i.val ≠ j.val := fun h => hne (Fin.ext h)
  have hj : (cs.set i s)[j] = cs[j] := Vector.getElem_set_ne _ _ hval
  have hi : (cs.set j t)[i] = cs[i] := Vector.getElem_set_ne _ _ hval.symm
  refine ⟨hj, hi, (cs.set i s).set j t, ?_, ?_, ?_, ?_⟩
  · exact stepContext_eq_next.mpr ⟨t, by rw [hj, ht], rfl⟩
  · exact stepContext_eq_next.mpr ⟨s, by rw [hi, hs], Vector.set_comm _ _ hval⟩
  · exact Vector.getElem_set_ne _ _ hval.symm
  · simp

end Sys2Proof.Machine
end

section
/-! Bytes and words: LOAD64LE, STORE64LE and `MemRead` as numbers, and the serialised chain value byte by byte (R32 to
R36). -/

namespace Sys2Proof.Machine

/-- LOAD64LE as a number: eight bytes make less than 2^64 (R33). -/
theorem load64le_toNat (s : Vector Byte 8) :
    (load64le s).toNat =
      s[0].toNat + s[1].toNat * 2 ^ 8 + s[2].toNat * 2 ^ 16 + s[3].toNat * 2 ^ 24 + s[4].toNat * 2 ^ 32 +
        s[5].toNat * 2 ^ 40 + s[6].toNat * 2 ^ 48 + s[7].toNat * 2 ^ 56 := by
  rw [load64le, BitVec.toNat_ofNat]
  exact Nat.mod_eq_of_lt (by omega)

/-- Byte `k` of STORE64LE (R34). -/
@[simp] theorem getElem_store64le (w : Word) (k : Nat) (hk : k < 8) : (store64le w)[k] = w.extractLsb' (8 * k) 8 := by
  simp [store64le]

/-- Eight bits of a word as a number. -/
theorem extractLsb'_eight_toNat (w : Word) (i : Nat) : (w.extractLsb' i 8).toNat = w.toNat / 2 ^ i % 256 := by
  rw [BitVec.extractLsb'_toNat, Nat.shiftRight_eq_div_pow]

/-- LOAD64LE puts the bytes of a word together again. -/
theorem load64le_store64le (w : Word) : load64le (store64le w) = w := by
  apply BitVec.eq_of_toNat_eq
  simp only [load64le_toNat, getElem_store64le, extractLsb'_eight_toNat]
  omega

/-- STORE64LE takes the bytes of a word apart again: each byte is its digit of the sum in base 256. -/
theorem store64le_load64le (s : Vector Byte 8) : store64le (load64le s) = s := by
  ext1 k hk
  apply BitVec.eq_of_toNat_eq
  rw [getElem_store64le, extractLsb'_eight_toNat, load64le_toNat]
  interval_cases k <;> omega

/-- The bytes `MemWrite(a, 8, w)` writes are those of STORE64LE. -/
theorem memWrite_eight (m : Memory) (a : Nat) (w : Word) :
    memWrite m a 8 w.toNat = writeBytes m a (store64le w).toList := by
  have hbytes : (List.range 8).map (fun k => BitVec.ofNat 8 (w.toNat / 2 ^ (8 * k))) = (store64le w).toList := by
    refine List.ext_getElem (by simp) fun k _ hk => BitVec.eq_of_toNat_eq ?_
    simp [Nat.shiftRight_eq_div_pow]
  rw [memWrite, hbytes]

/-- `MemRead(a, 8)` is LOAD64LE of the eight bytes from `a` on (R33). -/
theorem memRead_eight (m : Memory) (a : Nat) :
    memRead m a 8 = (load64le (Vector.ofFn fun k : Fin 8 => readByte m (a + k.val))).toNat := by
  simp only [load64le_toNat, Vector.getElem_ofFn, memRead, Nat.add_assoc, Nat.reduceAdd, Nat.add_zero]
  omega

/-- Word `i` of the block parse (R35). -/
theorem getElem_messageWords (b : Block) (i : Nat) (hi : i < 16) :
    (messageWords b)[i] = load64le (Vector.ofFn fun k : Fin 8 => b[8 * i + k.val]) :=
  Vector.getElem_ofFn _

/-- The serialised chain value is the bytes of the eight words put end to end. -/
theorem serialiseChain_eq_flatten (h : Chain) : serialiseChain h = (h.map store64le).flatten.toList := by
  simp [serialiseChain, List.flatMap_def, Vector.flatten, Vector.toList, Function.comp_def]

/-- Byte `k` of the serialised chain value (R36). -/
theorem getElem?_serialiseChain (h : Chain) {k : Nat} (hk : k < 64) :
    (serialiseChain h)[k]? = some ((h[k / 8]).extractLsb' (8 * (k % 8)) 8) := by
  rw [serialiseChain_eq_flatten, Vector.getElem?_toList, Vector.getElem?_eq_getElem hk, Vector.getElem_flatten,
    Vector.getElem_map, getElem_store64le]

/-- The serialised chain value has 64 bytes. -/
@[simp] theorem length_serialiseChain (h : Chain) : (serialiseChain h).length = 64 := by
  rw [serialiseChain_eq_flatten, Vector.length_toList]

/-- Settles O20: DIGEST takes the first `n` of the 64 bytes of the serialised chain value. -/
theorem digestBytesAreChainBytes : Obligations.DigestBytesAreChainBytes := by
  intro h n hn
  refine ⟨?_, fun k hk => ?_⟩
  · rw [digestOf, List.length_take, length_serialiseChain, Nat.min_eq_left hn]
  · rw [digestOf, List.getElem?_take_of_lt hk, getElem?_serialiseChain h k.isLt]

/-- Settles O22: the two inverses, and the law of a sequence of written bytes for MemWrite. -/
theorem loadAndStoreAreInverse : Obligations.LoadAndStoreAreInverse := by
  refine ⟨load64le_store64le, store64le_load64le, fun w k => getElem_store64le w k k.isLt, fun m a w hm ha => ?_⟩
  have hread (i : Nat) : readByte (memWrite m a 8 w.toNat) i =
      if a ≤ i ∧ i < a + 8 then (store64le w).toList.getD (i - a) 0#8 else readByte m i := by
    rw [memWrite_eight]
    exact readByte_writeBytes hm ha i
  refine ⟨fun k => ?_, fun i outside => ?_⟩
  · rw [hread, if_pos (by omega)]
    simp
  · rw [hread, if_neg (by omega)]

/-- Settles O23: LOAD64LE as a sum, and the two places that read a word by it. -/
theorem loadReadsLittleEndian : Obligations.LoadReadsLittleEndian :=
  ⟨load64le_toNat, memRead_eight, fun b i => getElem_messageWords b i i.isLt⟩

end Sys2Proof.Machine
end

section
/-! The decoder and the encoder: which row a word belongs to decides what it decodes to, so decoding and encoding are inverse
to each other between the words of the three rows and the well-formed commands (R52 to R58). -/

namespace Sys2Proof

/-! ### The rows of the opcode table -/

/-- A row selects a word by its mask and its pattern. -/
theorem OpcodeRow.selects_iff {r : OpcodeRow} {w : CommandWord} : r.selects w = true ↔ w &&& r.mask = r.pattern :=
  beq_iff_eq

/-- The one word of FINALIZE by its opcode and its field (format F). -/
theorem finalizeRow_selects_iff_fields (w : CommandWord) :
    finalizeRow.selects w = true ↔ w.toNat / 2 ^ 24 = 3 ∧ w.toNat % 2 ^ 24 = 0 := by
  rw [finalizeRow_selects, ← BitVec.toNat_inj, BitVec.toNat_ofNat]
  omega

/-- No word of UPDATE is one of INIT: their opcodes differ. -/
theorem not_initRow_of_updateRow {w : CommandWord} (h : updateRow.selects w = true) : ¬ initRow.selects w = true := by
  rw [updateRow_selects] at h
  rw [initRow_selects]
  omega

/-! ### Decoding, row by row -/

section Decode
variable {w : CommandWord}

theorem decode_of_initRow (h : initRow.selects w = true) :
    decode w = .ok (.init (w.toNat / 2 ^ 16 % 2 ^ 8) (w.toNat / 2 ^ 8 % 2 ^ 8)) := by
  rw [decode, if_pos h, wordField_eq, wordField_eq]

theorem decode_of_updateRow (h : updateRow.selects w = true) : decode w = .ok (.update (w.toNat % 2 ^ 24)) := by
  rw [decode, if_neg (not_initRow_of_updateRow h), if_pos h, wordField_eq, Nat.pow_zero, Nat.div_one]

theorem decode_of_finalizeRow (h : finalizeRow.selects w = true) : decode w = .ok .finalize := by
  obtain rfl := (finalizeRow_selects w).mp h
  rfl

/-- A word that decodes belongs to the row of its command. -/
theorem row_selects_of_decode {i : Instr} (h : decode w = .ok i) : i.row.selects w = true := by
  unfold decode at h
  split_ifs at h with isInit isUpdate isFinalize <;> cases h
  · exact isInit
  · exact isUpdate
  · exact isFinalize

theorem decode_eq_ok_init {nn kk : Nat} :
    decode w = .ok (.init nn kk) ↔
      initRow.selects w = true ∧ nn = w.toNat / 2 ^ 16 % 2 ^ 8 ∧ kk = w.toNat / 2 ^ 8 % 2 ^ 8 := by
  constructor
  · intro h
    have hrow := row_selects_of_decode h
    rw [decode_of_initRow hrow] at h
    cases h
    exact ⟨hrow, rfl, rfl⟩
  · rintro ⟨hrow, rfl, rfl⟩
    exact decode_of_initRow hrow

theorem decode_eq_ok_update {len : Nat} :
    decode w = .ok (.update len) ↔ updateRow.selects w = true ∧ len = w.toNat % 2 ^ 24 := by
  constructor
  · intro h
    have hrow := row_selects_of_decode h
    rw [decode_of_updateRow hrow] at h
    cases h
    exact ⟨hrow, rfl⟩
  · rintro ⟨hrow, rfl⟩
    exact decode_of_updateRow hrow

theorem decode_eq_ok_finalize : decode w = .ok .finalize ↔ finalizeRow.selects w = true :=
  ⟨row_selects_of_decode, decode_of_finalizeRow⟩

/-- The illegal words are those of no row (R58). -/
theorem exists_decode_eq_error :
    (∃ e, decode w = .error e) ↔
      ¬ initRow.selects w = true ∧ ¬ updateRow.selects w = true ∧ ¬ finalizeRow.selects w = true := by
  constructor
  · rintro ⟨e, h⟩
    refine ⟨fun hrow => ?_, fun hrow => ?_, fun hrow => ?_⟩
    · cases h.symm.trans (decode_of_initRow hrow)
    · cases h.symm.trans (decode_of_updateRow hrow)
    · cases h.symm.trans (decode_of_finalizeRow hrow)
  · intro ⟨notInit, notUpdate, notFinalize⟩
    cases h : decode w with
    | error e => exact ⟨e, rfl⟩
    | ok i =>
      have hrow := row_selects_of_decode h
      cases i with
      | init => exact absurd hrow notInit
      | update => exact absurd hrow notUpdate
      | finalize => exact absurd hrow notFinalize

end Decode

/-! ### Well-formed commands -/

theorem wellFormed_init {nn kk : Nat} : (Instr.init nn kk).wellFormed = true ↔ nn < 2 ^ 8 ∧ kk < 2 ^ 8 := by
  simp only [Instr.wellFormed, Bool.and_eq_true, decide_eq_true_eq]

theorem wellFormed_update {len : Nat} : (Instr.update len).wellFormed = true ↔ len < 2 ^ 24 := decide_eq_true_iff

/-- Settles O1, command by command: the number of the encoded word gives back the row and the fields. -/
theorem decodeOfEncode : Obligations.DecodeOfEncode := by
  intro i hwf
  cases i with
  | init nn kk =>
    obtain ⟨hnn, hkk⟩ := wellFormed_init.mp hwf
    rw [decode_eq_ok_init, initRow_selects, toNat_encode_init hnn hkk]
    omega
  | update len =>
    have hlen := wellFormed_update.mp hwf
    rw [decode_eq_ok_update, updateRow_selects, toNat_encode_update hlen]
    omega
  | finalize => rfl

/-- Settles O2, command by command: the fields of a word fit, and with its row they determine its number. -/
theorem encodeOfDecode : Obligations.EncodeOfDecode := by
  intro w i h
  have hw := w.isLt
  cases i with
  | init nn kk =>
    obtain ⟨hrow, hnn, hkk⟩ := decode_eq_ok_init.mp h
    rw [initRow_selects] at hrow
    have fits : nn < 2 ^ 8 ∧ kk < 2 ^ 8 := by omega
    refine ⟨wellFormed_init.mpr fits, BitVec.eq_of_toNat_eq ?_⟩
    rw [toNat_encode_init fits.1 fits.2]
    omega
  | update len =>
    obtain ⟨hrow, hlen⟩ := decode_eq_ok_update.mp h
    rw [updateRow_selects] at hrow
    have fits : len < 2 ^ 24 := by omega
    refine ⟨wellFormed_update.mpr fits, BitVec.eq_of_toNat_eq ?_⟩
    rw [toNat_encode_update fits]
    omega
  | finalize => exact ⟨rfl, ((finalizeRow_selects w).mp (decode_eq_ok_finalize.mp h)).symm⟩

/-- FINALIZE has one word. -/
theorem eq_encode_finalize_iff {w : CommandWord} : w = encode .finalize ↔ decode w = .ok .finalize := by
  rw [decode_eq_ok_finalize, finalizeRow_selects, encode]

end Sys2Proof

namespace Sys2Proof.Machine

/-! ### The payload length a word declares -/

section PayLen
variable {w : CommandWord}

theorem payLen_of_ok {i : Instr} (h : decode w = .ok i) : payLen w = payloadLength i := by simp only [payLen, h]

theorem payLen_of_error {e : DecodeError} (h : decode w = .error e) : payLen w = 0 := by simp only [payLen, h]

/-- The payload length, row by row (R57, R58). -/
theorem payLen_eq (w : CommandWord) :
    payLen w =
      if initRow.selects w = true then w.toNat / 2 ^ 8 % 2 ^ 8
      else if updateRow.selects w = true then w.toNat % 2 ^ 24
      else 0 := by
  by_cases isInit : initRow.selects w = true
  · rw [if_pos isInit, payLen_of_ok (decode_of_initRow isInit), payloadLength]
  by_cases isUpdate : updateRow.selects w = true
  · rw [if_neg isInit, if_pos isUpdate, payLen_of_ok (decode_of_updateRow isUpdate), payloadLength]
  rw [if_neg isInit, if_neg isUpdate]
  by_cases isFinalize : finalizeRow.selects w = true
  · rw [payLen_of_ok (decode_of_finalizeRow isFinalize), payloadLength]
  · obtain ⟨e, h⟩ := exists_decode_eq_error.mpr ⟨isInit, isUpdate, isFinalize⟩
    exact payLen_of_error h

end PayLen

/-- Settles O3: a row selects a word by its mask, and the row decides the command, the fields and the payload length. -/
theorem wordsDecodeByMaskAndFields : Obligations.WordsDecodeByMaskAndFields := by
  intro w
  refine ⟨fun nn kk => ?_, fun len => ?_, ?_, ?_⟩
  · exact decode_eq_ok_init.trans (and_congr_left' OpcodeRow.selects_iff)
  · exact decode_eq_ok_update.trans (and_congr_left' OpcodeRow.selects_iff)
  · exact decode_eq_ok_finalize.trans (finalizeRow_selects w)
  · rw [payLen_eq]
    exact if_congr OpcodeRow.selects_iff rfl (if_congr OpcodeRow.selects_iff rfl rfl)

/-- An illegal word leaves the channel and gets IllegalCommand; nothing else changes (R118). -/
theorem step_of_decode_error {s : State} {w : CommandWord} {rest : List CommandWord} {e : DecodeError}
    (waiting : s.commandIn = w :: rest) (bad : decode w = .error e) :
    step s = .next ⟨s.hash, rest, s.payloadIn, s.responseOut ++ [⟨.illegalCommand, []⟩]⟩ := by
  rw [step_of_stepMove (.illegal waiting bad), reject, respond, waiting, List.tail_cons]

/-- Settles O4: the words of no row by opcode and field, and what the machine does with one. -/
theorem illegalWordsGetIllegalCommand : Obligations.IllegalWordsGetIllegalCommand := by
  intro w
  refine ⟨?_, fun s rest e waiting bad => ⟨payLen_of_error bad, step_of_decode_error waiting bad⟩⟩
  rw [exists_decode_eq_error, initRow_selects, updateRow_selects, finalizeRow_selects_iff_fields]
  omega

/-- Settles O5: each of the eleven closed words decodes by evaluation. -/
theorem listedWordsDecodeAsListed : Obligations.ListedWordsDecodeAsListed := by
  refine ⟨?_, ?_, ?_, ?_, ?_, ?_, ?_, ?_, ?_, ?_, ?_⟩ <;> decide

/-- Settles O6: the fetch finds the command, and the step is its meaning. -/
theorem stepRunsDecodedCommand : Obligations.StepRunsDecodedCommand := fun _ _ _ _ waiting good =>
  step_of_fetch_command (fetch_command waiting good)

/-- Settles O8: a word that declares a payload is a command, and that command waits. -/
theorem stepWaitsForWholePayload : Obligations.StepWaitsForWholePayload := by
  intro s w rest waiting short
  cases h : decode w with
  | error e =>
    rw [payLen_of_error h] at short
    exact absurd short (Nat.not_lt_zero _)
  | ok i =>
    rw [payLen_of_ok h] at short
    exact step_of_stepMove (.command waiting h (.wait short))

end Sys2Proof.Machine
end

section
/-! The one response of a transaction, and who sends digest bytes (R60). -/

namespace Sys2Proof.Machine

/-- The digest has as many bytes as asked for (R36). -/
theorem length_digestOf (h : Chain) {n : Nat} (hn : n ≤ 64) : (digestOf h n).length = n :=
  (digestBytesAreChainBytes h n hn).1

/-- A command with its payload there adds one response: an accepted FINALIZE the digest of the new chain value, any other
none. -/
theorem execMove_response {i : Instr} {s t : State} (move : ExecMove s i t)
    (there : payloadLength i ≤ s.payloadIn.length) :
    ∃ r, t.responseOut = s.responseOut ++ [r] ∧
      ((i = .finalize ∧ r.status = .ok ∧ s.hash.phase = .active ∧ t.hash.outlen = s.hash.outlen ∧
          r.digest = digestOf t.hash.h t.hash.outlen.val) ∨
        (¬ (i = .finalize ∧ r.status = .ok) ∧ r.digest = [])) := by
  cases move with
  | wait short => exact absurd there (Nat.not_le_of_lt short)
  | initOk => exact ⟨_, rfl, .inr ⟨by simp, rfl⟩⟩
  | initBad => exact ⟨_, rfl, .inr ⟨by simp, rfl⟩⟩
  | updateOk => exact ⟨_, rfl, .inr ⟨by simp, rfl⟩⟩
  | updateBad => exact ⟨_, rfl, .inr ⟨by simp, rfl⟩⟩
  | finalizeOk active => exact ⟨_, rfl, .inl ⟨rfl, rfl, active, rfl, rfl⟩⟩
  | finalizeBad => exact ⟨_, rfl, .inr ⟨by simp, rfl⟩⟩

/-- Settles O36: an illegal word sends no digest, a command as `execMove_response` says; the invariant makes a digest at
least one byte long. -/
theorem digestOnlyFromAcceptedFinalize : Obligations.DigestOnlyFromAcceptedFinalize := by
  intro s t w rest inv waiting there hstep
  rw [eq_encode_finalize_iff]
  cases good : decode w with
  | error e =>
    rw [step_of_decode_error waiting good] at hstep
    cases hstep
    exact ⟨_, rfl, by simp, by simp⟩
  | ok i =>
    rw [payLen_of_ok good] at there
    rw [stepRunsDecodedCommand s w rest i waiting good] at hstep
    obtain ⟨r, hout, ⟨rfl, hok, active, hlen, hdigest⟩ | ⟨hnot, hnil⟩⟩ :=
      execMove_response (execMove_of_exec hstep) there
    · have length : r.digest.length = s.hash.outlen.val := by
        rw [hdigest, length_digestOf _ (Nat.le_of_lt_succ t.hash.outlen.isLt), hlen]
      have nonempty : r.digest ≠ [] := by
        rw [← List.length_pos_iff, length]
        exact inv.outlen_pos (by rw [active]; decide)
      exact ⟨r, hout, iff_of_true nonempty ⟨rfl, hok⟩, fun _ => ⟨hdigest, length⟩⟩
    · refine ⟨r, hout, iff_of_false (not_not.mpr hnil) fun ⟨hi, hok⟩ => hnot ⟨?_, hok⟩, fun h => absurd hnil h⟩
      exact Except.ok.inj hi

end Sys2Proof.Machine
end

section
/-! The UPDATE transactions of a long `update`: pieces of the data that together are the data, each short enough for its
word (R63). -/

namespace Sys2Proof.Machine

/-- The pieces put end to end are the data. -/
theorem pieces_flatten (limit fuel : Nat) (data : List Byte) : (pieces limit fuel data).flatten = data := by
  induction fuel generalizing data with
  | zero => simp [pieces]
  | succ fuel ih =>
    rw [pieces]
    split
    · simp
    · rw [List.flatten_cons, ih, List.take_append_drop]

/-- With fuel enough every piece is within the limit: each turn takes at least one byte off. -/
theorem length_le_of_mem_pieces {limit fuel : Nat} {data : List Byte} (hlimit : 0 < limit)
    (enough : data.length ≤ limit + fuel) {c : List Byte} (hc : c ∈ pieces limit fuel data) : c.length ≤ limit := by
  induction fuel generalizing data with
  | zero =>
    rw [pieces, List.mem_singleton] at hc
    rwa [hc]
  | succ fuel ih =>
    rw [pieces] at hc
    split at hc
    next short =>
      rw [List.mem_singleton] at hc
      rwa [hc]
    next =>
      rcases List.mem_cons.mp hc with rfl | hrest
      · exact List.length_take_le _ _
      · exact ih (by rw [List.length_drop]; omega) hrest

/-- The payloads of the UPDATE transactions are the pieces. -/
theorem map_payload_updateTransactions (data : List Byte) :
    (updateTransactions data).map Transaction.payload = pieces Config.lenMax data.length data := by
  simp [updateTransactions, transactionOf, Function.comp_def]

/-- An UPDATE transaction of at most `LENMAX` bytes decodes to UPDATE of that many (R54). -/
theorem decode_encode_update {len : Nat} (h : len ≤ Config.lenMax) : decode (encode (.update len)) = .ok (.update len) :=
  decodeOfEncode _ (wellFormed_update.mpr (Nat.lt_of_le_pred (by decide) h))

/-- Settles O50: the pieces are the data, and each fits the field of its word. -/
theorem longUpdateExpandsInOrder : Obligations.LongUpdateExpandsInOrder := by
  intro data
  refine ⟨by rw [map_payload_updateTransactions, pieces_flatten], fun t ht => ?_⟩
  obtain ⟨c, hc, rfl⟩ := List.mem_map.mp ht
  have hlen : c.length ≤ Config.lenMax := length_le_of_mem_pieces (by decide) (Nat.le_add_left _ _) hc
  have hdecode := decode_encode_update hlen
  exact ⟨hlen, hdecode, beq_iff_eq.mpr (payLen_of_ok hdecode).symm⟩

end Sys2Proof.Machine
end

section
/-! ADDCTR with its carry, and INIT: the parameter block, the initial chain value and the key block (R67 to R74). -/

namespace Sys2Proof.Machine

/-- ADDCTR carries exactly when the sum of the low word and the addend reaches 2^64 (R74). -/
theorem counterCarry_eq (t0 : Word) {n : Nat} (hn : n < 2 ^ 64) :
    counterCarry (t0 + BitVec.ofNat 64 n) n = if 2 ^ 64 ≤ t0.toNat + n then 1 else 0 := by
  have h0 := t0.isLt
  have carries : (t0 + BitVec.ofNat 64 n).toNat < n ↔ 2 ^ 64 ≤ t0.toNat + n := by
    rw [BitVec.toNat_add, BitVec.toNat_ofNat, Nat.mod_eq_of_lt hn]
    omega
  simp only [counterCarry, carries]

/-- Settles O24: the low word, the carry, and the two words together as a number. -/
theorem counterAddsModulo128Bits : Obligations.CounterAddsModulo128Bits := by
  intro t1 t0 n hn
  have h1 := t1.isLt
  have h0 := t0.isLt
  have high : (addCounter t1 t0 n).1 = if 2 ^ 64 ≤ t0.toNat + n then t1 + 1 else t1 := by
    simp only [addCounter, counterCarry_eq t0 (n := n) (by omega)]
    split
    · rfl
    · exact BitVec.add_zero t1
  refine ⟨rfl, high, ?_⟩
  have low : (addCounter t1 t0 n).2.toNat = (t0.toNat + n) % 2 ^ 64 := by simp [addCounter]
  simp only [counterValue, low, high]
  split
  · rw [BitVec.toNat_add, show (1 : Word).toNat = 1 from rfl]
    omega
  · omega

/-! ### The parameter block -/

theorem getElem_parameterBlock (nn kk : Nat) {i : Nat} (hi : i < 64) :
    (parameterBlock nn kk)[i] = [BitVec.ofNat 8 nn, BitVec.ofNat 8 kk, 0x01#8, 0x01#8].getD i 0x00#8 :=
  Vector.getElem_ofFn _

/-- From byte 4 on the parameter block is zero (R69). -/
theorem getElem_parameterBlock_of_le (nn kk : Nat) {i : Nat} (low : 4 ≤ i) (hi : i < 64) :
    (parameterBlock nn kk)[i] = 0#8 :=
  (getElem_parameterBlock nn kk hi).trans (List.getD_eq_default _ _ low)

theorem getElem_initialChain (nn kk : Nat) (i : Fin 8) :
    (initialChain nn kk)[i] =
      iv[i] ^^^ load64le (Vector.ofFn fun k : Fin 8 => (parameterBlock nn kk)[8 * i.val + k.val]) :=
  Vector.getElem_ofFn _

/-- The first word of the parameter block: digest length, key length, and two bytes 0x01 (R69). -/
theorem initialChain_zero {nn kk : Nat} (hn : nn ≤ 64) (hk : kk ≤ 64) :
    (initialChain nn kk)[0] = iv[0] ^^^ BitVec.ofNat 64 (0x01010000 + 256 * kk + nn) := by
  have word : load64le (Vector.ofFn fun k : Fin 8 => (parameterBlock nn kk)[8 * 0 + k.val]) =
      BitVec.ofNat 64 (0x01010000 + 256 * kk + nn) := by
    apply BitVec.eq_of_toNat_eq
    simp only [load64le_toNat, Vector.getElem_ofFn, getElem_parameterBlock, BitVec.toNat_ofNat, Nat.reduceMul,
      Nat.reduceAdd, List.getD_cons_zero, List.getD_cons_succ, List.getD_nil]
    omega
  exact (getElem_initialChain nn kk 0).trans (congrArg (iv[0] ^^^ ·) word)

/-- Only the first word of the parameter block is not zero (R69). -/
theorem initialChain_of_ne_zero (nn kk : Nat) {i : Fin 8} (hi : i ≠ 0) : (initialChain nn kk)[i] = iv[i] := by
  have hpos : i.val ≠ 0 := fun h => hi (Fin.ext h)
  have zeros (k : Fin 8) : (parameterBlock nn kk)[8 * i.val + k.val] = 0#8 :=
    getElem_parameterBlock_of_le nn kk (by omega) _
  have word : load64le (Vector.ofFn fun _ : Fin 8 => 0#8) = 0#64 := by decide
  simp only [getElem_initialChain, zeros, word]
  exact BitVec.xor_zero

/-- Settles O10: the bytes of the parameter block, and its words. -/
theorem initialChainFromParameterBlock : Obligations.InitialChainFromParameterBlock := by
  intro nn kk hn hk
  have byteZero := getElem_parameterBlock nn kk (i := 0) (by decide)
  have byteOne := getElem_parameterBlock nn kk (i := 1) (by decide)
  refine ⟨?_, ?_, getElem_parameterBlock nn kk _, getElem_parameterBlock nn kk _,
    fun i low => getElem_parameterBlock_of_le nn kk low i.isLt, getElem_initialChain nn kk, initialChain_zero hn hk,
    fun i => initialChain_of_ne_zero nn kk⟩
  · rw [byteZero]
    exact Nat.mod_eq_of_lt (show nn < 2 ^ 8 by omega)
  · rw [byteOne]
    exact Nat.mod_eq_of_lt (show kk < 2 ^ 8 by omega)

/-! ### The key block -/

/-- A cleared buffer reads as the bytes written to it from offset 0 on, and as zero behind them. -/
theorem readByte_writeBytes_cleared {bs : List Byte} (fits : bs.length ≤ 128) (a : Nat) :
    readByte (writeBytes clearedBuffer 0 bs) a = bs.getD a 0#8 := by
  rw [readByte_writeBytes clearedBuffer_wf (by omega)]
  split
  · rfl
  · exact (List.getD_eq_default _ _ (by omega)).symm

/-- INIT writes the key to a cleared buffer; without a key it writes nothing (R67). -/
theorem startHash_buffer_eq (nn : Nat) (key : List Byte) :
    (startHash nn key.length key).buffer = writeBytes clearedBuffer 0 key := by
  cases key <;> rfl

/-- Settles O9: with valid operands the fields of the fresh context, otherwise the rejection. -/
theorem initCommandResult : Obligations.InitCommandResult := by
  intro nn kk s there
  refine ⟨fun valid => ?_, fun invalid => ?_⟩
  · have ⟨_, hn, hk⟩ := valid
    have hlen : (s.payloadIn.take kk).length = kk := List.length_take_of_le there
    refine ⟨_, exec_of_execMove (.initOk there (validInit_iff.mpr valid)), initialChain_zero hn hk,
      fun i => initialChain_of_ne_zero nn kk, rfl, rfl, fun a _ => ?_, ?_, ?_, rfl, rfl, rfl, rfl⟩
    · have hbuffer := startHash_buffer_eq nn (s.payloadIn.take kk)
      rw [hlen] at hbuffer
      rw [respond_hash, hbuffer, readByte_writeBytes_cleared (by omega)]
      split
      · exact getD_take_of_lt ‹_›
      · exact List.getD_eq_default _ _ (by omega)
    · simp only [respond_hash, startHash_buflen, Nat.pos_iff_ne_zero, ite_not]
      split <;> rfl
    · exact Nat.mod_eq_of_lt (by omega)
  · exact exec_of_execMove (.initBad there (by rwa [← Bool.not_eq_true, validInit_iff]))

/-- The fresh context that holds no byte yet: what INIT leaves without a key, the key length only in the chain value. -/
def emptyStart (nn kk : Nat) : HashState := { startHash nn kk [] with buffer := clearedBuffer, buflen := 0 }

theorem length_keyBlock {key : List Byte} (hkey : key.length ≤ 128) : (keyBlock key).length = 128 := by
  rw [keyBlock, List.length_append, List.length_replicate, Config.blockBytes]
  omega

/-- The zeros behind the key do not show. -/
theorem getD_keyBlock (key : List Byte) (a : Nat) : (keyBlock key).getD a 0#8 = key.getD a 0#8 := by
  rcases Nat.lt_or_ge a key.length with inside | outside
  · exact List.getD_append _ _ _ _ inside
  · rw [keyBlock, List.getD_append_right _ _ _ _ outside, List.getD_eq_default _ _ outside,
      List.getD_eq_getElem?_getD, List.getElem?_getD_replicate_default_eq]

/-- Writing the key block to a cleared buffer writes the key. -/
theorem writeBytes_keyBlock {key : List Byte} (hkey : key.length ≤ 128) :
    writeBytes clearedBuffer 0 (keyBlock key) = writeBytes clearedBuffer 0 key := by
  have hblock := length_keyBlock hkey
  refine Memory.ext_of_readByte (writeBytes_wf clearedBuffer_wf (by omega)) (writeBytes_wf clearedBuffer_wf (by omega))
    fun a => ?_
  rw [readByte_writeBytes_cleared (by omega), readByte_writeBytes_cleared hkey, getD_keyBlock]

/-- Settles O11: the 128 bytes of the key block just fit into the empty buffer. -/
theorem keyIsAbsorbedAsFirstBlock : Obligations.KeyIsAbsorbedAsFirstBlock := by
  intro nn key hpos hkey
  have hblock := length_keyBlock (key := key) (by omega)
  have hfull : (startHash nn key.length key).buflen = 128 := if_pos hpos
  rw [absorbAll_of_fits (by simp [hblock])]
  simp only [hblock, Fin.val_zero]
  rw [writeBytes_keyBlock (by omega), ← startHash_buffer_eq nn key]
  exact congrArg (fun n => { startHash nn key.length key with buflen := n }) hfull.symm

end Sys2Proof.Machine
end

section
/-! UPDATE: one ABSORB in full, and the absorption of a byte sequence as a whole, cut in two, or a block at a time (R72 to
R82). -/

namespace Sys2Proof.Machine

/-- Settles O12: the two moves of UPDATE. -/
theorem updateCommandResult : Obligations.UpdateCommandResult := fun _ _ there =>
  ⟨fun active fits => exec_of_execMove (.updateOk there active fits),
    fun inactive => exec_of_execMove (.updateBad there inactive)⟩

/-- Settles O13, by whether the buffer is full. -/
theorem absorbOneByte : Obligations.AbsorbOneByte := by
  intro hs b hwf
  refine ⟨absorb_outlen hs b, absorb_phase hs b, fun a => ?_, fun full => ?_, fun room => ?_⟩
  · rw [absorb_buffer, readByte_writeByte hwf]
  · have hoff : storeOffset hs.buflen = 0 := by rw [storeOffset, full, Nat.mod_self]
    refine ⟨hoff, by rw [absorb_buflen, hoff], ?_, ?_⟩
    · rw [absorb_t0, absorb_t1, makeRoom_of_full full]
      rfl
    · rw [absorb_h, makeRoom_of_full full]
      rfl
  · have hoff : storeOffset hs.buflen = hs.buflen.val := Nat.mod_eq_of_lt room
    exact ⟨hoff, by rw [absorb_buflen, hoff], by rw [absorb_of_lt room], by rw [absorb_of_lt room],
      by rw [absorb_of_lt room]⟩

/-- The offset of the next byte moves on by as many as are absorbed, round the buffer (R31). -/
theorem storeOffset_absorbAll (hs : HashState) (d : List Byte) :
    storeOffset (absorbAll hs d).buflen = (storeOffset hs.buflen + d.length) % 128 := by
  induction d generalizing hs with
  | nil => exact (Nat.mod_eq_of_lt (storeOffset_lt _)).symm
  | cons b d ih =>
    rw [absorbAll_cons, ih, storeOffset_absorb, List.length_cons]
    omega

/-- The fill level once a byte has been absorbed: a full block stays in the buffer (R14, R72). -/
theorem absorbAll_buflen (hs : HashState) {d : List Byte} (nonempty : 0 < d.length) :
    (absorbAll hs d).buflen.val = (hs.buflen.val + d.length - 1) % 128 + 1 := by
  obtain ⟨front, b, rfl⟩ := (List.eq_nil_or_concat' d).resolve_left (List.length_pos_iff.mp nonempty)
  rw [absorbAll_append, absorbAll_cons, absorbAll_nil, absorb_buflen, storeOffset_absorbAll, storeOffset,
    List.length_append]
  simp

/-- Absorbing advances the counter by a block for each compression: one for each full block of which it is known that a byte
follows (R72, R73). -/
theorem absorbAll_count {hs : HashState} {d : List Byte} (fits : hs.absorbed + d.length < 2 ^ 128) :
    (absorbAll hs d).count = hs.count + 128 * ((hs.buflen.val + d.length - 1) / 128) := by
  have hmax := hs.buflen.isLt
  have total := absorbAll_absorbed (Nat.le_of_lt fits)
  rw [absorbed_eq, absorbed_eq] at total
  rcases Nat.eq_zero_or_pos d.length with empty | nonempty
  · rw [List.length_eq_zero_iff.mp empty, absorbAll_nil, List.length_nil]
    omega
  · rw [absorbAll_buflen hs nonempty] at total
    omega

/-- Settles O15: the counter, the number of absorbed bytes and the fill level after absorbing the payload. -/
theorem updateAdvancesCounterByWholeBlocks : Obligations.UpdateAdvancesCounterByWholeBlocks := by
  intro len s active there fits
  have hlen : (s.payloadIn.take len).length = len := List.length_take_of_le there
  refine ⟨_, exec_of_execMove (.updateOk there active fits), ?_⟩
  rw [respond_hash]
  have count := absorbAll_count (hs := s.hash) (d := s.payloadIn.take len) (by rwa [hlen])
  have total := absorbAll_absorbed (hs := s.hash) (d := s.payloadIn.take len) (by rw [hlen]; omega)
  have level := absorbAll_buflen s.hash (d := s.payloadIn.take len)
  rw [hlen] at count total level
  exact ⟨count, total, level⟩

/-- UPDATE of a payload that stands at the head of the input stream. -/
theorem exec_update_of_append {s : State} {d rest : List Byte} (active : s.hash.phase = .active)
    (stream : s.payloadIn = d ++ rest) (fits : s.hash.absorbed + d.length < 2 ^ 128) :
    exec (.update d.length) s = .next (respond .ok [] { s with hash := absorbAll s.hash d, payloadIn := rest }) := by
  have there : d.length ≤ s.payloadIn.length := by simp [stream]
  have move := exec_of_execMove (.updateOk there active fits)
  rwa [State.consumed, stream, List.take_left, List.drop_left] at move

/-- Settles O17: absorbing `A ++ B` is absorbing `A` and then `B`. -/
theorem splitUpdateGivesSameState : Obligations.SplitUpdateGivesSameState := by
  intro s a b rest active stream fits
  have first : s.hash.absorbed + a.length < 2 ^ 128 := by omega
  have absorbed := absorbAll_absorbed (Nat.le_of_lt first)
  have whole := exec_update_of_append (d := a ++ b) active stream (by rwa [List.length_append])
  have one := exec_update_of_append active (stream.trans (List.append_assoc a b rest)) first
  rw [List.length_append] at whole
  refine ⟨_, _, _, whole, one, exec_update_of_append (d := b) (rest := rest) ?_ rfl ?_, ?_, rfl, rfl⟩
  · rw [respond_hash, absorbAll_phase, active]
  · rw [respond_hash, absorbed]
    omega
  · exact absorbAll_append s.hash a b

/-! ### A block at a time -/

/-- Making room in the buffer is the first part of ABSORB, so doing it beforehand changes nothing (R73, R82). -/
theorem absorb_makeRoom (hs : HashState) (b : Byte) : absorb hs.makeRoom b = absorb hs b := by
  have hlt := storeOffset_lt hs.buflen
  have hoff : storeOffset hs.makeRoom.buflen = storeOffset hs.buflen := by
    rw [storeOffset, makeRoom_buflen]
    exact Nat.mod_eq_of_lt hlt
  have hroom : hs.makeRoom.makeRoom = hs.makeRoom := makeRoom_of_ne (by rw [makeRoom_buflen]; omega)
  rw [absorb, absorb, hoff, hroom]

/-- Making room when a byte follows anyway changes nothing. -/
theorem absorbAll_makeRoom (hs : HashState) (b : Byte) (d : List Byte) :
    absorbAll hs.makeRoom (b :: d) = absorbAll hs (b :: d) := by
  rw [absorbAll_cons, absorbAll_cons, absorb_makeRoom]

/-- Bytes first fill the buffer, and the others follow. -/
theorem absorbAll_fill (hs : HashState) (d : List Byte) :
    absorbAll hs d =
      absorbAll
        { hs with
          buffer := writeBytes hs.buffer hs.buflen.val (d.take (128 - hs.buflen.val))
          buflen := Fin.ofNat 129 (hs.buflen.val + min (128 - hs.buflen.val) d.length) }
        (d.drop (128 - hs.buflen.val)) := by
  have hmax := hs.buflen.isLt
  have hlen : (d.take (128 - hs.buflen.val)).length = min (128 - hs.buflen.val) d.length := List.length_take
  have inside : hs.buflen.val + (d.take (128 - hs.buflen.val)).length ≤ 128 := by omega
  conv_lhs => rw [← List.take_append_drop (128 - hs.buflen.val) d, absorbAll_append]
  rw [absorbAll_of_fits inside, hlen]

/-- With fuel for each byte the absorption by blocks is the absorption by bytes: each turn absorbs what fits behind the fill
level, at least one byte. -/
theorem absorbBlocks_eq_absorbAll {fuel : Nat} {hs : HashState} {data : List Byte} (enough : data.length ≤ fuel) :
    absorbBlocks fuel hs data = absorbAll hs data := by
  induction fuel generalizing hs data with
  | zero => rw [List.length_eq_zero_iff.mp (Nat.le_zero.mp enough), absorbAll_nil, absorbBlocks]
  | succ fuel ih =>
    cases data with
    | nil => rw [absorbAll_nil, absorbBlocks]
    | cons b data =>
      have room : hs.makeRoom.buflen.val < 128 := makeRoom_buflen hs ▸ storeOffset_lt _
      have enough' : ((b :: data).drop (128 - hs.makeRoom.buflen.val)).length ≤ fuel := by
        rw [List.length_drop]
        omega
      rw [← absorbAll_makeRoom, absorbAll_fill, ← ih enough', absorbBlocks]
      exact List.cons_ne_nil b data

/-- Settles O49: `data.length` turns are enough. -/
theorem blockwiseAbsorbIsBytewiseAbsorb : Obligations.BlockwiseAbsorbIsBytewiseAbsorb := fun _ _ =>
  absorbBlocks_eq_absorbAll (Nat.le_refl _)

end Sys2Proof.Machine
end

section
/-! FINALIZE, and the whole transaction: the phase machine cell by cell, and the one refusal (R65, R75 to R79). -/

namespace Sys2Proof.Machine

/-- The padding clears the buffer from the fill level on (R76). -/
theorem readByte_pad {hs : HashState} (hwf : hs.buffer.wf) (a : Nat) :
    readByte hs.pad.buffer a = if hs.buflen.val ≤ a ∧ a < 128 then 0#8 else readByte hs.buffer a := by
  have hmax := hs.buflen.isLt
  have hend : hs.buflen.val + (List.replicate (128 - hs.buflen.val) 0#8).length = 128 := by
    rw [List.length_replicate]
    omega
  rw [pad_buffer, readByte_writeBytes hwf (Nat.le_of_eq hend), hend, List.getD_eq_getElem?_getD,
    List.getElem?_getD_replicate_default_eq]

/-- Settles O18: the two moves of FINALIZE. -/
theorem finalizeCommandResult : Obligations.FinalizeCommandResult := by
  intro s hwf
  refine ⟨fun active fits => ?_, fun inactive => exec_of_execMove (.finalizeBad inactive)⟩
  exact ⟨_, exec_of_execMove (.finalizeOk active fits), rfl, readByte_pad hwf, finish_h s.hash, rfl, rfl, rfl, rfl, rfl,
    rfl⟩

/-- Settles O19: the invariant bounds the digest length and the absorbed bytes. -/
theorem digestHasRequestedLength : Obligations.DigestHasRequestedLength := by
  intro s inv active
  have fits : s.hash.absorbed < 2 ^ 128 := inv.in_contract active
  have hmax : s.hash.outlen.val ≤ 64 := Nat.le_of_lt_succ s.hash.outlen.isLt
  have hpos : 1 ≤ s.hash.outlen.val := inv.outlen_pos (by simp [active])
  have hlen := length_digestOf s.hash.finish.h hmax
  exact ⟨_, _, exec_of_execMove (.finalizeOk active fits), rfl, hlen, hpos.trans_eq hlen.symm, hlen.trans_le hmax,
    finish_count fits⟩

/-- FINALIZE of a running computation leads to DONE (R78). -/
theorem phase_of_exec_finalize {s t : State} (active : s.hash.phase = .active) (h : exec .finalize s = .next t) :
    t.hash.phase = .done := by
  cases execMove_of_exec h with
  | wait short => exact absurd short (Nat.not_lt_zero _)
  | finalizeOk => rfl
  | finalizeBad inactive => exact absurd active inactive

/-- Settles O21: in DONE both commands are rejected. -/
theorem finalizedContextIsSpent : Obligations.FinalizedContextIsSpent := by
  intro s t len active hexec there
  have inactive : t.hash.phase ≠ .active := by simp [phase_of_exec_finalize active hexec]
  exact ⟨⟨_, exec_of_execMove (.finalizeBad inactive), rfl, rfl⟩,
    ⟨_, exec_of_execMove (.updateBad there inactive), rfl, rfl⟩⟩

/-- Settles O34: the moves of a command with its payload there are the cells of the table. -/
theorem phaseMachineTable : Obligations.PhaseMachineTable := by
  intro s t w rest waiting there hstep
  cases good : decode w with
  | error e =>
    rw [step_of_decode_error waiting good] at hstep
    cases hstep
    exact ⟨_, _, rfl, rfl, rfl, rfl⟩
  | ok i =>
    rw [payLen_of_ok good] at there
    rw [stepRunsDecodedCommand s w rest i waiting good] at hstep
    cases execMove_of_exec hstep with
    | wait short => exact absurd there (Nat.not_le_of_lt short)
    | initOk _ valid =>
      simp only [if_pos (validInit_iff.mp valid)]
      exact ⟨_, _, rfl, rfl, rfl, rfl, rfl⟩
    | initBad _ invalid =>
      simp only [if_neg (validInit_iff.not.mp (Bool.eq_false_iff.mp invalid))]
      exact ⟨_, _, rfl, rfl, rfl, rfl⟩
    | updateOk _ active =>
      simp only [if_pos active]
      exact ⟨_, _, rfl, rfl, (absorbAll_phase _ _).trans active, rfl, rfl⟩
    | updateBad _ inactive =>
      simp only [if_neg inactive]
      exact ⟨_, _, rfl, rfl, rfl, rfl⟩
    | finalizeOk active =>
      simp only [if_pos active]
      exact ⟨_, _, rfl, rfl, rfl, rfl, rfl⟩
    | finalizeBad inactive =>
      simp only [if_neg inactive]
      exact ⟨_, _, rfl, rfl, rfl, rfl⟩

/-- Settles O42: a refused step is a refused command, and the machine gives the one refusal there is. -/
theorem onlyOverlongComputationIsRefused : Obligations.OnlyOverlongComputationIsRefused := by
  intro s r
  constructor
  · intro hstep
    obtain ⟨w, rest, i, waiting, good, hexec⟩ := exec_of_step_refused hstep
    obtain ⟨rfl, active, there, long, notInit⟩ := exec_refused hexec
    refine ⟨rfl, active, w, rest, i, waiting, good, ?_, there, long⟩
    cases i with
    | init nn kk => exact absurd rfl (notInit nn kk)
    | update len => exact .inr ⟨len, rfl⟩
    | finalize => exact .inl rfl
  · rintro ⟨rfl, active, w, rest, i, waiting, good, notInit, there, long⟩
    rw [stepRunsDecodedCommand s w rest i waiting good]
    refine exec_of_overlong active there long fun nn kk h => ?_
    simp [h] at notInit

end Sys2Proof.Machine
end

section
/-! A whole computation: what the context holds of the absorbed data, in the terms of the block-by-block description, and the
run of the transactions (R81). -/

namespace Sys2Proof.Machine

/-! ### The block-by-block description -/

/-- The blocks compressed before the last: all full blocks behind which a byte follows (R81). -/
theorem compressionCount_sub_one (length : Nat) : compressionCount length - 1 = (length - 1) / 128 := by
  rw [compressionCount, Config.blockBytes]
  omega

section Blocks
variable {data : List Byte} {n : Nat} (h : Chain) (more : List Byte)

/-- A full block of the data does not change when more data follow. -/
theorem dataBlock_append (full : 128 * (n + 1) ≤ data.length) : dataBlock (data ++ more) n = dataBlock data n := by
  ext1 k hk
  simp only [dataBlock, Vector.getElem_ofFn]
  exact List.getD_append _ _ _ _ (by simp only [Config.blockBytes]; omega)

/-- Neither does the chain value after full blocks. -/
theorem chainAfter_append (full : 128 * n ≤ data.length) : chainAfter h (data ++ more) n = chainAfter h data n := by
  induction n with
  | zero => rfl
  | succ n ih => rw [chainAfter, chainAfter, ih (by omega), dataBlock_append more full]

end Blocks

/-! ### What the context holds of the data -/

/-- A compression takes the counter as the number it is (R12, R94). -/
theorem compressBuffer_h_eq_compressAt (hs : HashState) (f : Bool) :
    (hs.compressBuffer f).h = compressAt hs.h (blockOf hs.buffer) hs.count f := by
  obtain ⟨low, high⟩ := words_of_counterValue (t1 := hs.t1) (t0 := hs.t0) rfl
  exact compress_congr rfl rfl low high rfl

/-- Advancing advances, below the bound of D14 (R74). -/
theorem advance_count {hs : HashState} {n : Nat} (hn : n ≤ 128) (fits : hs.count + n < 2 ^ 128) :
    (hs.advance n).count = hs.count + n := addCounter_value hn fits

/-- The context of a computation that started from the chain value `h` and has absorbed `data`: every block but the last is
compressed, and the last, full or not, stands in the buffer (R72, R81). -/
structure HashState.Holds (hs : HashState) (h : Chain) (data : List Byte) : Prop where
  buffer_wf : hs.buffer.wf
  chain : hs.h = chainAfter h data (compressionCount data.length - 1)
  count : hs.count = 128 * (compressionCount data.length - 1)
  absorbed : hs.absorbed = data.length
  bytes : ∀ i < hs.buflen.val, readByte hs.buffer i = data.getD (128 * (compressionCount data.length - 1) + i) 0#8

theorem emptyStart_count (nn kk : Nat) : (emptyStart nn kk).count = 0 := startHash_count nn kk []

/-- Nothing is absorbed yet. -/
theorem emptyStart_holds (nn kk : Nat) : (emptyStart nn kk).Holds (initialChain nn kk) [] := by
  have noBlock : compressionCount ([] : List Byte).length - 1 = 0 := compressionCount_sub_one 0
  refine ⟨clearedBuffer_wf, ?_, ?_, ?_, fun i hi => absurd hi (Nat.not_lt_zero i)⟩
  · rw [noBlock]
    rfl
  · rw [noBlock, emptyStart_count]
  · rw [absorbed_eq, emptyStart_count]
    rfl

section Holds
variable {hs : HashState} {h : Chain} {data : List Byte} (holds : hs.Holds h data)
include holds

/-- The fill level by the number of bytes absorbed. -/
theorem HashState.Holds.length_eq : data.length = 128 * ((data.length - 1) / 128) + hs.buflen.val := by
  rw [← compressionCount_sub_one, ← holds.count, ← absorbed_eq, holds.absorbed]

/-- The padded buffer is the last block of the data. -/
theorem HashState.Holds.blockOf_pad :
    blockOf hs.pad.buffer = dataBlock data (compressionCount data.length - 1) := by
  have hlen := holds.length_eq
  rw [blockOf_eq_iff]
  intro i hi
  simp only [dataBlock, Vector.getElem_ofFn]
  rw [readByte_pad holds.buffer_wf]
  split
  · rw [compressionCount_sub_one, List.getD_eq_default _ _ (by simp only [Config.blockBytes]; omega)]
  · exact holds.bytes i (by omega)

/-- A full buffer is the last block of the data. -/
theorem HashState.Holds.blockOf_full (full : hs.buflen.val = 128) :
    blockOf hs.buffer = dataBlock data (compressionCount data.length - 1) := by
  rw [← holds.blockOf_pad, pad_buffer, full]
  rfl

/-- Absorbing one byte, with room in the buffer. -/
theorem HashState.Holds.absorb_room (room : hs.buflen.val < 128) (fits : data.length + 1 < 2 ^ 128) (b : Byte) :
    (absorb hs b).Holds h (data ++ [b]) := by
  have hlen := holds.length_eq
  have hblocks : compressionCount (data ++ [b]).length - 1 = compressionCount data.length - 1 := by
    rw [compressionCount_sub_one, compressionCount_sub_one, List.length_append, List.length_singleton]
    omega
  have hbefore := compressionCount_sub_one data.length
  refine ⟨absorb_wf holds.buffer_wf b, ?_, ?_, ?_, fun i hi => ?_⟩
  · rw [hblocks, chainAfter_append _ _ (by omega), ← holds.chain, absorb_of_lt room]
  · rw [hblocks, ← holds.count, absorb_of_lt room]
    rfl
  · rw [absorb_absorbed (by rw [holds.absorbed]; omega), holds.absorbed, List.length_append, List.length_singleton]
  · have hoff : storeOffset hs.buflen = hs.buflen.val := Nat.mod_eq_of_lt room
    rw [absorb_buflen, hoff] at hi
    rw [absorb_buffer, readByte_writeByte holds.buffer_wf, hblocks, hoff]
    by_cases new : i = hs.buflen.val
    · rw [if_pos new, List.getD_append_right _ _ _ _ (by omega),
        show 128 * (compressionCount data.length - 1) + i - data.length = 0 by omega]
      rfl
    · rw [if_neg new, List.getD_append _ _ _ _ (by omega), holds.bytes i (by omega)]

/-- Absorbing one byte, the buffer full: one more block is compressed. -/
theorem HashState.Holds.absorb_full (full : hs.buflen.val = 128) (fits : data.length + 1 < 2 ^ 128) (b : Byte) :
    (absorb hs b).Holds h (data ++ [b]) := by
  have hlen := holds.length_eq
  have hbefore := compressionCount_sub_one data.length
  have hblocks : compressionCount (data ++ [b]).length - 1 = compressionCount data.length - 1 + 1 := by
    rw [compressionCount_sub_one, List.length_append, List.length_singleton]
    omega
  have hcount := holds.count
  have below : hs.absorbed < 2 ^ 128 := by rw [holds.absorbed]; omega
  refine ⟨absorb_wf holds.buffer_wf b, ?_, ?_, ?_, fun i hi => ?_⟩
  · rw [hblocks, chainAfter_append _ _ (by omega), chainAfter, ← holds.chain, ← holds.blockOf_full full, Nat.mul_succ,
      Config.blockBytes, ← hcount, ← advance_count (Nat.le_refl 128) (by omega), absorb_h, makeRoom_of_full full]
    exact compressBuffer_h_eq_compressAt (hs.advance 128) false
  · rw [hblocks, absorb_count below, if_pos full, hcount, Nat.mul_succ]
  · rw [absorb_absorbed below, holds.absorbed, List.length_append, List.length_singleton]
  · have hoff : storeOffset hs.buflen = 0 := by rw [storeOffset, full, Nat.mod_self]
    rw [absorb_buflen, hoff] at hi
    obtain rfl : i = 0 := by omega
    rw [absorb_buffer, readByte_writeByte holds.buffer_wf, if_pos hoff.symm, hblocks,
      List.getD_append_right _ _ _ _ (by omega),
      show 128 * (compressionCount data.length - 1 + 1) + 0 - data.length = 0 by omega]
    rfl

/-- The chain value FINALIZE leaves is the final one of the data (R75, R81). -/
theorem HashState.Holds.finish_h (fits : data.length < 2 ^ 128) : hs.finish.h = finalChain h data := by
  have hcount : hs.finish.count = data.length := (finish_count (holds.absorbed ▸ fits)).trans holds.absorbed
  calc hs.finish.h = compressAt hs.h (blockOf hs.pad.buffer) hs.finish.count true :=
        compressBuffer_h_eq_compressAt (hs.advance hs.buflen.val).pad true
    _ = finalChain h data := by rw [hcount, holds.blockOf_pad, holds.chain, finalChain]

end Holds

/-- Absorbing appends to the data. -/
theorem HashState.Holds.absorbAll {hs : HashState} {h : Chain} {data d : List Byte} (holds : hs.Holds h data)
    (fits : (data ++ d).length < 2 ^ 128) : (absorbAll hs d).Holds h (data ++ d) := by
  induction d generalizing hs data with
  | nil => rwa [List.append_nil, absorbAll_nil]
  | cons b d ih =>
    have hassoc : data ++ b :: d = data ++ [b] ++ d := by simp
    rw [hassoc] at fits ⊢
    have one : data.length + 1 < 2 ^ 128 := by
      simp only [List.length_append, List.length_singleton] at fits
      omega
    refine ih ?_ fits
    rcases Nat.lt_or_ge hs.buflen.val 128 with room | full
    · exact holds.absorb_room room one b
    · exact holds.absorb_full (Nat.le_antisymm (Nat.le_of_lt_succ hs.buflen.isLt) full) one b

/-- INIT with a key leaves what absorbing the key block leaves, and without a key the empty context (R71). -/
theorem startHash_eq_absorbAll (nn : Nat) {key : List Byte} (hkey : key.length ≤ 64) :
    startHash nn key.length key = absorbAll (emptyStart nn key.length) (absorbedData key []) := by
  rw [absorbedData, List.append_nil]
  split
  · next noKey => rw [noKey]; rfl
  · next keyed => exact (keyIsAbsorbedAsFirstBlock nn key (List.length_pos_iff.mpr keyed) hkey).symm

theorem absorbedData_eq_append (key msg : List Byte) : absorbedData key msg = absorbedData key [] ++ msg := by
  rw [absorbedData, absorbedData, List.append_nil]

/-- A running computation holds its key block and its message. -/
theorem holds_absorbAll_startHash (nn : Nat) {key msg : List Byte} (hkey : key.length ≤ 64)
    (fits : (absorbedData key msg).length < 2 ^ 128) :
    (absorbAll (startHash nn key.length key) msg).Holds (initialChain nn key.length) (absorbedData key msg) := by
  rw [absorbedData_eq_append] at fits ⊢
  rw [startHash_eq_absorbAll nn hkey, ← absorbAll_append]
  exact (emptyStart_holds nn key.length).absorbAll fits

/-! ### The run of the transactions -/

section Transactions
variable {hs : HashState} {words : List CommandWord} {payload : List Byte} {out : List Response}

/-- The transaction of INIT. -/
theorem step_init {nn : Nat} {key : List Byte} (hpos : 1 ≤ nn) (hmax : nn ≤ 64) (hkey : key.length ≤ 64) :
    step ⟨hs, encode (.init nn key.length) :: words, key ++ payload, out⟩ =
      .next ⟨startHash nn key.length key, words, payload, out ++ [⟨.ok, []⟩]⟩ := by
  rw [stepRunsDecodedCommand _ _ _ _ rfl (decodeOfEncode _ (wellFormed_init.mpr ⟨by omega, by omega⟩))]
  refine (exec_of_execMove (.initOk ?_ (validInit_iff.mpr ⟨hpos, hmax, hkey⟩))).trans ?_
  · simp
  · simp [respond]

/-- The transaction of an UPDATE in a running computation. -/
theorem step_update {d : List Byte} (active : hs.phase = .active) (hlen : d.length ≤ Config.lenMax)
    (fits : hs.absorbed + d.length < 2 ^ 128) :
    step ⟨hs, encode (.update d.length) :: words, d ++ payload, out⟩ =
      .next ⟨absorbAll hs d, words, payload, out ++ [⟨.ok, []⟩]⟩ := by
  rw [stepRunsDecodedCommand _ _ _ _ rfl (decode_encode_update hlen)]
  exact exec_update_of_append active rfl fits

/-- The transaction of FINALIZE in a running computation. -/
theorem step_finalize (active : hs.phase = .active) (fits : hs.absorbed < 2 ^ 128) :
    step ⟨hs, encode .finalize :: words, payload, out⟩ =
      .next ⟨hs.finish, words, payload, out ++ [⟨.ok, digestOf hs.finish.h hs.outlen.val⟩]⟩ := by
  rw [stepRunsDecodedCommand _ _ _ _ rfl (decodeOfEncode .finalize rfl)]
  exact exec_of_execMove (.finalizeOk active fits)

/-- The transactions of the UPDATEs, one after another. -/
theorem run_updates {chunks : List (List Byte)} (active : hs.phase = .active)
    (hlen : ∀ c ∈ chunks, c.length ≤ Config.lenMax) (fits : hs.absorbed + chunks.flatten.length < 2 ^ 128) (k : Nat) :
    Host.Core.run core (chunks.length + k)
        ⟨hs, (chunks.map fun c => encode (.update c.length)) ++ words, chunks.flatten ++ payload, out⟩ =
      Host.Core.run core k
        ⟨absorbAll hs chunks.flatten, words, payload, out ++ List.replicate chunks.length ⟨.ok, []⟩⟩ := by
  induction chunks generalizing hs out with
  | nil => simp [absorbAll_nil]
  | cons c chunks ih =>
    obtain ⟨hc, hrest⟩ := List.forall_mem_cons.mp hlen
    rw [List.flatten_cons, List.length_append] at fits
    have now : hs.absorbed + c.length < 2 ^ 128 := by omega
    have later : (absorbAll hs c).absorbed + chunks.flatten.length < 2 ^ 128 := by
      rw [absorbAll_absorbed (Nat.le_of_lt now)]
      omega
    rw [List.map_cons, List.cons_append, List.flatten_cons, List.append_assoc, List.length_cons, Nat.add_right_comm,
      run_of_next (step_update active hc now), ih ((absorbAll_phase hs c).trans active) hrest later, absorbAll_append,
      List.append_assoc, List.singleton_append, ← List.replicate_succ]

end Transactions

/-- The transactions of a computation on channels that were empty. -/
theorem submit_hashTransactions {s : State} (nn : Nat) (key : List Byte) (chunks : List (List Byte))
    (noWord : s.commandIn = []) (noByte : s.payloadIn = []) :
    submit (hashTransactions nn key chunks) s =
      ⟨s.hash, encode (.init nn key.length) :: ((chunks.map fun c => encode (.update c.length)) ++ [encode .finalize]),
        key ++ (chunks.flatten ++ []), s.responseOut⟩ := by
  simp [submit, hashTransactions, transactionOf, noWord, noByte, Function.comp_def]

/-- Settles O51: INIT, the UPDATEs and FINALIZE, each by its transaction; the context before FINALIZE holds the key block and
the message. -/
theorem computationReturnsOneShotDigest : Obligations.ComputationReturnsOneShotDigest := by
  intro s nn key chunks noWord noByte hpos hmax hkey hlen fits
  have holds := holds_absorbAll_startHash nn hkey fits
  have fitsBeforeFinalize : (absorbAll (startHash nn key.length key) chunks.flatten).absorbed < 2 ^ 128 := by
    rwa [holds.absorbed]
  have fitsAfterInit : (startHash nn key.length key).absorbed + chunks.flatten.length < 2 ^ 128 := by
    have hdata := congrArg List.length (absorbedData_eq_append key chunks.flatten)
    rw [List.length_append] at hdata
    have start := (holds_absorbAll_startHash nn (msg := []) hkey (by omega)).absorbed
    rw [absorbAll_nil] at start
    omega
  have outlen : (absorbAll (startHash nn key.length key) chunks.flatten).outlen.val = nn := by
    rw [absorbAll_outlen]
    exact Nat.mod_eq_of_lt (by omega)
  rw [submit_hashTransactions nn key chunks noWord noByte, run_of_next (step_init hpos hmax hkey),
    run_updates rfl hlen fitsAfterInit, run_of_next (step_finalize (absorbAll_phase _ _) fitsBeforeFinalize), run_zero,
    holds.finish_h fits, outlen]
  refine ⟨_, rfl, rfl, rfl, rfl, ?_⟩
  simp [List.replicate_succ, oneShotDigest]

end Sys2Proof.Machine
end

section
/-! The Compression Core: what a call leaves alone, why the calls of one step do not depend on each other, and COMPRESS word by
word (R86 to R92, R102). -/

namespace Sys2Proof.Machine

/-! ### The calls of one step -/

/-- The places of `v` a call reads and writes (R98). -/
def GCall.places (c : GCall) : List (Fin 16) := [c.a, c.b, c.c, c.d]

/-- Two calls have no place of `v` in common. -/
abbrev CallsApart (i j : Fin 8) : Prop := ∀ p ∈ callSchedule[j].places, p ∉ callSchedule[i].places

/-- Each of the four columns has its own places (R102). -/
theorem columnCalls_apart : columnCalls.Pairwise CallsApart := by decide

/-- Each of the four diagonals has its own places (R102). -/
theorem diagonalCalls_apart : diagonalCalls.Pairwise CallsApart := by decide

/-- A call leaves the other twelve words alone (R100). -/
theorem getElem_writeQuad_of_not_mem {c : GCall} {p : Fin 16} (h : p ∉ c.places) (q : Quad) (v : WorkVector) :
    (writeQuad c q v)[p] = v[p] := by
  simp only [GCall.places, List.mem_cons, List.not_mem_nil, or_false, not_or, Fin.ext_iff] at h
  obtain ⟨ha, hb, hc, hd⟩ := h
  simp [writeQuad, Vector.getElem_set_ne, Ne.symm ha, Ne.symm hb, Ne.symm hc, Ne.symm hd]

/-- A call reads its own places only. -/
theorem readQuad_congr {c : GCall} {v w : WorkVector} (h : ∀ p ∈ c.places, v[p] = w[p]) : readQuad c v = readQuad c w := by
  simp only [GCall.places, List.forall_mem_cons] at h
  obtain ⟨ha, hb, hc, hd, -⟩ := h
  simp only [readQuad, ha, hb, hc, hd]

section Step
variable {m : MessageWords} {s : Vector (Fin 16) 16}

/-- A call computes the same on a vector that an apart call has written. -/
theorem callResult_writeQuad_of_apart {i j : Fin 8} (apart : CallsApart i j) (q : Quad) (v : WorkVector) :
    callResult m s j (writeQuad callSchedule[i] q v) = callResult m s j v := by
  have same : readQuad callSchedule[j] (writeQuad callSchedule[i] q v) = readQuad callSchedule[j] v :=
    readQuad_congr fun p hp => getElem_writeQuad_of_not_mem (apart p hp) q v
  rw [callResult, callResult, same]

/-- Calls that are pairwise apart, run one after another from `acc`, write what they compute on `v`, as long as each of them
computes the same on both. -/
theorem foldl_applyCall_of_apart {js : List (Fin 8)} (apart : js.Pairwise CallsApart) {acc v : WorkVector}
    (same : ∀ j ∈ js, callResult m s j acc = callResult m s j v) :
    js.foldl (applyCall m s) acc = js.foldl (fun acc j => writeQuad callSchedule[j] (callResult m s j v) acc) acc := by
  induction js generalizing acc with
  | nil => rw [List.foldl_nil, List.foldl_nil]
  | cons i js ih =>
    obtain ⟨fromFirst, apart⟩ := List.pairwise_cons.mp apart
    obtain ⟨first, same⟩ := List.forall_mem_cons.mp same
    have written : applyCall m s acc i = writeQuad callSchedule[i] (callResult m s i v) acc := by rw [applyCall, first]
    rw [List.foldl_cons, List.foldl_cons, written]
    refine ih apart fun j hj => ?_
    rw [callResult_writeQuad_of_apart (fromFirst j hj), same j hj]

/-- Calls that are pairwise apart give the same one after another and side by side (R102). -/
theorem applyCalls_eq_applyStep {js : List (Fin 8)} (apart : js.Pairwise CallsApart) (v : WorkVector) :
    applyCalls m s js v = applyStep m s js v :=
  foldl_applyCall_of_apart apart fun _ _ => rfl

end Step

/-- A round is the column step and then the diagonal step. -/
theorem applyRound_eq_diagonals_columns (m : MessageWords) (r : Nat) (v : WorkVector) :
    applyRound m r v = applyCalls m (sigmaRow r) diagonalCalls (applyCalls m (sigmaRow r) columnCalls v) :=
  List.foldl_append

/-- A vector core computes ROUND (R102). -/
theorem vectorRound_eq_applyRound : vectorRound = applyRound := by
  funext m r v
  rw [applyRound_eq_diagonals_columns, applyCalls_eq_applyStep columnCalls_apart,
    applyCalls_eq_applyStep diagonalCalls_apart, vectorRound]

/-- Settles O33: the scalar core is COMPRESS itself, and a vector core computes every round as ROUND does, because the calls of
a step are apart. -/
theorem everyBackendComputesCompress : Obligations.EveryBackendComputesCompress := by
  intro backend h b t0 t1 f
  cases backend with
  | scalar => rfl
  | vector => rw [compressOn, vectorRound_eq_applyRound, compress]

/-! ### The working vector -/

/-- Behind the chain value stands IV. -/
theorem getElem_append_iv (h : Chain) {i : Nat} (hi : i < 8) : (h ++ iv)[i + 8] = iv[i] :=
  Vector.getElem_append_right (Nat.add_lt_add_right hi 8) (Nat.le_add_left 8 i)

/-- Below place 12 nothing is tweaked (R86). -/
theorem getElem_workVector_of_lt (h : Chain) (t0 t1 : Word) (f : Bool) {i : Nat} (hi : i < 12) :
    (workVector h t0 t1 f)[i] = (h ++ iv)[i] := by
  simp only [workVector]
  rw [Vector.getElem_set_ne _ _ (by omega), Vector.getElem_set_ne _ _ (by omega), Vector.getElem_set_ne _ _ (by omega)]

/-- The final-block mask complements the word it is XORed into (R86). -/
theorem xor64_finalMask (w : Word) (f : Bool) : xor64 w (finalMask f) = if f then ~~~w else w := by
  cases f with
  | false => exact BitVec.xor_zero
  | true => exact BitVec.xor_allOnes

/-- Settles O31: the tweaks write the places 12, 13 and 14 only. -/
theorem workVectorWordByWord : Obligations.WorkVectorWordByWord := by
  intro h t0 t1 f
  refine ⟨fun i => ?_, fun i => ?_, ?_, ?_, ?_, ?_⟩
  · rw [getElem_workVector_of_lt h t0 t1 f (by omega)]
    exact Vector.getElem_append_left i.isLt
  · rw [getElem_workVector_of_lt h t0 t1 f (by omega)]
    exact getElem_append_iv h (by omega)
  · simp [workVector, xor64, getElem_append_iv h (i := 4)]
  · simp [workVector, xor64, getElem_append_iv h (i := 5)]
  · simp [workVector, xor64_finalMask, getElem_append_iv h (i := 6)]
  · simp [workVector, getElem_append_iv h (i := 7)]

/-! ### The rounds and the feed-forward -/

/-- The feed-forward word by word (R89). -/
theorem getElem_feedForward (h : Chain) (v : WorkVector) (i : Fin 8) :
    (feedForward h v)[i] = h[i] ^^^ v[i.val] ^^^ v[i.val + 8] :=
  Vector.getElem_ofFn i.isLt

/-- The rounds of COMPRESS, in order, over any implementation of one round (R88). -/
theorem runRounds_eq (round : MessageWords → Nat → WorkVector → WorkVector) (m : MessageWords) (v : WorkVector) :
    runRounds round m v =
      (round m 11 <| round m 10 <| round m 9 <| round m 8 <| round m 7 <| round m 6 <| round m 5 <| round m 4 <|
        round m 3 <| round m 2 <| round m 1 <| round m 0 v) :=
  rfl

/-- Settles O32: the feed-forward of what the rounds, listed in order, leave. -/
theorem compressRunsTwelveRounds : Obligations.CompressRunsTwelveRounds := by
  intro h b t0 t1 f i
  rw [compress, compressWith, getElem_feedForward, runRounds_eq]

end Sys2Proof.Machine
end

section
/-! What a call of a round writes, why the calls of one step may trade places, and the rows of SIGMA (R96 to R102). -/

namespace Sys2Proof.Machine

/-! ### What a call writes -/

/-- The four places of a call are four different ones (R98). -/
theorem nodup_places_callSchedule : ∀ j : Fin 8, callSchedule[j].places.Nodup := by decide

/-- The words a call has written are the ones read at its places (R100). -/
theorem readQuad_writeQuad {c : GCall} (distinct : c.places.Nodup) (q : Quad) (v : WorkVector) :
    readQuad c (writeQuad c q v) = q := by
  simp only [GCall.places, List.nodup_cons, List.mem_cons, List.not_mem_nil, or_false, not_or, Fin.ext_iff] at distinct
  obtain ⟨⟨hab, hac, had⟩, ⟨hbc, hbd⟩, hcd, -⟩ := distinct
  simp [readQuad, writeQuad, Vector.getElem_set_ne, Ne.symm hab, Ne.symm hac, Ne.symm had, Ne.symm hbc, Ne.symm hbd,
    Ne.symm hcd]

/-- Settles O28: the four places of a call are distinct, so all four words are read back, and no other is written. -/
theorem callWritesItsFourWords : Obligations.CallWritesItsFourWords := by
  intro m r v j c q v'
  have written : readQuad c v' = q := readQuad_writeQuad (nodup_places_callSchedule j) q v
  refine ⟨congrArg Quad.a written, congrArg Quad.b written, congrArg Quad.c written, congrArg Quad.d written, ?_⟩
  intro i ha hb hc hd
  have outside : i ∉ c.places := by simp [GCall.places, ha, hb, hc, hd]
  exact getElem_writeQuad_of_not_mem outside q v

/-! ### The order of the calls of one step -/

/-- At its own places a call leaves the same on every vector it is written to. -/
theorem getElem_writeQuad_of_mem {c : GCall} {p : Fin 16} (h : p ∈ c.places) (q : Quad) (v w : WorkVector) :
    (writeQuad c q v)[p] = (writeQuad c q w)[p] := by
  simp only [GCall.places, List.mem_cons, List.not_mem_nil, or_false] at h
  rcases h with rfl | rfl | rfl | rfl <;> simp [writeQuad, Vector.getElem_set]

/-- Calls without a common place may be written back in either order. -/
theorem writeQuad_comm_of_disjoint {c e : GCall} (disjoint : ∀ p ∈ e.places, p ∉ c.places) (q r : Quad) (v : WorkVector) :
    writeQuad e r (writeQuad c q v) = writeQuad c q (writeQuad e r v) := by
  have atPlace (p : Fin 16) : (writeQuad e r (writeQuad c q v))[p] = (writeQuad c q (writeQuad e r v))[p] := by
    by_cases inE : p ∈ e.places
    · rw [getElem_writeQuad_of_not_mem (disjoint p inE), getElem_writeQuad_of_mem inE]
    · rw [getElem_writeQuad_of_not_mem inE]
      by_cases inC : p ∈ c.places
      · exact getElem_writeQuad_of_mem inC q _ _
      · rw [getElem_writeQuad_of_not_mem inC, getElem_writeQuad_of_not_mem inC, getElem_writeQuad_of_not_mem inE]
  exact Vector.ext fun i hi => atPlace ⟨i, hi⟩

/-- Having no common place is symmetric; `List.Pairwise.forall` takes it as a class. -/
theorem callsApart_symm : Std.Symm CallsApart :=
  ⟨fun _ _ apart p inI inJ => apart p inJ inI⟩

section Order
variable {m : MessageWords} {s : Vector (Fin 16) 16}

/-- Apart calls commute: neither changes what the other computes, nor a place the other writes (R102). -/
theorem applyCall_comm_of_apart {i j : Fin 8} (apart : CallsApart i j) (v : WorkVector) :
    applyCall m s (applyCall m s v i) j = applyCall m s (applyCall m s v j) i := by
  simp only [applyCall, callResult_writeQuad_of_apart apart, callResult_writeQuad_of_apart (callsApart_symm.symm _ _ apart)]
  exact writeQuad_comm_of_disjoint apart _ _ v

/-- Calls that are pairwise apart may be evaluated in any order (R102). -/
theorem applyCalls_perm {js ks : List (Fin 8)} (apart : ks.Pairwise CallsApart) (perm : js.Perm ks) (v : WorkVector) :
    applyCalls m s js v = applyCalls m s ks v := by
  have symm : Std.Symm CallsApart := callsApart_symm
  refine (perm.symm.foldl_eq' (fun i hi j hj w => ?_) v).symm
  rcases eq_or_ne i j with rfl | different
  · rfl
  · exact applyCall_comm_of_apart (apart.forall hi hj different) w

end Order

/-- Settles O30: the columns are pairwise apart, and so are the diagonals. -/
theorem callOrderWithinStepIsFree : Obligations.CallOrderWithinStepIsFree := by
  intro m r v columns diagonals hcolumns hdiagonals
  rw [applyCalls_perm columnCalls_apart hcolumns, applyCalls_perm diagonalCalls_apart hdiagonals,
    applyRound_eq_diagonals_columns]

/-! ### The rows of SIGMA -/

/-- Rounds 0 to 9 use the row of their own number (R97). -/
theorem sigmaRow_eq_getElem (r : Fin 10) : sigmaRow r.val = sigma[r] := by
  simp only [sigmaRow, Nat.mod_eq_of_lt r.isLt, Fin.getElem_fin]

/-- The entries of each row are pairwise different (R96). -/
theorem nodup_sigma : ∀ r : Fin 10, sigma[r].toList.Nodup := by decide

/-- Sixteen different numbers below 16 are all of them. -/
theorem perm_finRange_of_nodup {row : Vector (Fin 16) 16} (distinct : row.toList.Nodup) :
    row.toList.Perm (List.finRange 16) := by
  refine (distinct.subperm fun p _ => List.mem_finRange p).perm_of_length_le ?_
  rw [List.length_finRange, Vector.length_toList]

/-- Settles O29: the row of a round by `r mod 10`, and sixteen different entries in each. -/
theorem sigmaRowsArePermutations : Obligations.SigmaRowsArePermutations :=
  ⟨fun r => ⟨sigmaRow_eq_getElem r, perm_finRange_of_nodup (nodup_sigma r)⟩, rfl, rfl⟩

end Sys2Proof.Machine
end

section
/-! ROTR64 moves bits and loses none (R107), and G can be undone line by line (R110). -/

namespace Sys2Proof.Machine

/-! ### The rotation -/

/-- R107 for every amount: the right shift gives the low bits, the left shift the bits that wrap round. -/
theorem getLsbD_rotr64 (p : Word) {n i : Nat} (hn : n ≤ 64) (hi : i < 64) :
    (rotr64 p n).getLsbD i = p.getLsbD ((i + n) % 64) := by
  simp only [rotr64, BitVec.getLsbD_or, BitVec.getLsbD_ushiftRight, BitVec.getLsbD_shiftLeft]
  rcases Nat.lt_or_ge (i + n) 64 with low | wraps
  · have keeps : i < 64 - n := by omega
    have place : (i + n) % 64 = n + i := by omega
    simp [keeps, place]
  · have shiftedOut : p.getLsbD (n + i) = false := BitVec.getLsbD_of_ge p _ (by omega)
    have place : (i + n) % 64 = i - (64 - n) := by omega
    have fromLeft : ¬ i < 64 - n := by omega
    simp [shiftedOut, place, fromLeft, hi]

/-- Settles O25: the four amounts are at most 64. -/
theorem rotationMovesEveryBit : Obligations.RotationMovesEveryBit := by
  intro p n hn i hi
  exact getLsbD_rotr64 p (by omega) hi

/-- Two rotations that add up to a full turn undo each other. -/
theorem rotr64_rotr64 (p : Word) {n k : Nat} (fullTurn : n + k = 64) : rotr64 (rotr64 p n) k = p := by
  refine BitVec.eq_of_getLsbD_eq fun i hi => ?_
  have back : ((i + k) % 64 + n) % 64 = i := by omega
  rw [getLsbD_rotr64 _ (by omega) hi, getLsbD_rotr64 _ (by omega) (Nat.mod_lt _ (by decide)), back]

/-! ### Undoing a line of G -/

/-- XOR64 with the same word twice gives back the other word (R106). -/
theorem xor64_xor64 (p q : Word) : xor64 (xor64 p q) q = p := by
  simp [xor64]

/-- Four lines of G undone, last line first; every line uses the words the undone lines have left (R110 (vi)). -/
def unmixHalf (q : Quad) (x : Word) (r₁ r₂ : Nat) : Quad :=
  let b := xor64 (rotr64 q.b (64 - r₂)) q.c
  let c := q.c - q.d
  let d := xor64 (rotr64 q.d (64 - r₁)) q.a
  let a := q.a - x - b
  ⟨a, b, c, d⟩

section Undo
variable {r₁ r₂ : Nat} (h₁ : r₁ ≤ 64) (h₂ : r₂ ≤ 64)
include h₁ h₂

/-- Mixing is undone by `unmixHalf`. -/
theorem unmixHalf_mixHalf (q : Quad) (x : Word) : unmixHalf (mixHalf q x r₁ r₂) x r₁ r₂ = q := by
  simp [mixHalf, unmixHalf, add64, rotr64_rotr64 _ (Nat.add_sub_of_le h₁), rotr64_rotr64 _ (Nat.add_sub_of_le h₂),
    xor64_xor64]

/-- Every quad is the mix of what `unmixHalf` makes of it. -/
theorem mixHalf_unmixHalf (q : Quad) (x : Word) : mixHalf (unmixHalf q x r₁ r₂) x r₁ r₂ = q := by
  simp [mixHalf, unmixHalf, add64, rotr64_rotr64 _ (Nat.sub_add_cancel h₁), rotr64_rotr64 _ (Nat.sub_add_cancel h₂),
    xor64_xor64]

/-- Each half of G is a bijection on the four words. -/
theorem mixHalf_bijective (x : Word) : Function.Bijective fun q : Quad => mixHalf q x r₁ r₂ :=
  Function.bijective_iff_has_inverse.2
    ⟨fun q => unmixHalf q x r₁ r₂, fun q => unmixHalf_mixHalf h₁ h₂ q x, fun q => mixHalf_unmixHalf h₁ h₂ q x⟩

end Undo

/-- Settles O26: G is its second half after its first, and both are bijections. -/
theorem mixingIsBijective : Obligations.MixingIsBijective := by
  intro x y
  have firstHalf : Function.Bijective fun q : Quad => mixHalf q x 32 24 := mixHalf_bijective (by decide) (by decide) x
  have secondHalf : Function.Bijective fun q : Quad => mixHalf q y 16 63 := mixHalf_bijective (by decide) (by decide) y
  exact secondHalf.comp firstHalf

/-! ### The sum `a + b + x` -/

/-- A half of G reads `a` and its message word through their sum with `b` only. -/
theorem mixHalf_eq_add_message (q : Quad) (x : Word) (r₁ r₂ : Nat) :
    mixHalf q x r₁ r₂ = mixHalf { q with a := q.a + x } 0 r₁ r₂ := by
  have sameSum : add64 (add64 q.a q.b) x = add64 (add64 (q.a + x) q.b) 0 := by
    rw [add64, add64, add64, add64, add_zero, add_right_comm]
  simp only [mixHalf, sameSum]

/-- Settles O27: `x` is the message word of the first half. -/
theorem mixingUsesOnlySumOfFirstWords : Obligations.MixingUsesOnlySumOfFirstWords := by
  intro q x y
  rw [mixG, mixG, mixHalf_eq_add_message q x]

end Sys2Proof.Machine
end

section
/-! How a transaction ends: the status, which the phase and the command word alone decide, and what a status other than OK
leaves as it was (R115 to R120, R132). -/

namespace Sys2Proof.Machine

/-- Settles O7: the fetch finds no word. -/
theorem stepHoldsStateBetweenCommands : Obligations.StepHoldsStateBetweenCommands := fun _ empty =>
  step_of_fetch_none (fetch_nil empty)

/-! ### The status as a function of the phase and the word -/

/-- The status of a command: INIT checks its operands, UPDATE and FINALIZE the phase (R116, R117). -/
def commandStatus (phase : Phase) : Instr → Status
  | .init nn kk => if validInit nn kk then .ok else .invalidParameter
  | .update _ | .finalize => if phase = .active then .ok else .invalidState

/-- The status of the transaction of a command word (R116 to R118). -/
def wordStatus (phase : Phase) (w : CommandWord) : Status :=
  match decode w with
  | .ok i => commandStatus phase i
  | .error _ => .illegalCommand

/-- The phase that a transaction answered OK leads to (R65). -/
def phaseAfterOk (w : CommandWord) : Phase := if decode w = .ok .finalize then .done else .active

section Status
variable {phase : Phase} {w : CommandWord}

theorem wordStatus_of_ok {i : Instr} (good : decode w = .ok i) : wordStatus phase w = commandStatus phase i := by
  simp only [wordStatus, good]

theorem wordStatus_of_error {e : DecodeError} (bad : decode w = .error e) : wordStatus phase w = .illegalCommand := by
  simp only [wordStatus, bad]

/-- R116 for the status as a function. -/
theorem wordStatus_eq_invalidParameter_iff :
    wordStatus phase w = .invalidParameter ↔
      ∃ nn kk, decode w = .ok (.init nn kk) ∧ (nn = 0 ∨ 64 < nn ∨ 64 < kk) := by
  simp only [← validInit_eq_false_iff]
  cases h : decode w with
  | error e => simp [wordStatus_of_error h]
  | ok i =>
    rw [wordStatus_of_ok h]
    cases i with
    | init nn kk => simp [commandStatus]
    | update len => simp [commandStatus, ite_eq_iff]
    | finalize => simp [commandStatus, ite_eq_iff]

/-- R117 for the status as a function. -/
theorem wordStatus_eq_invalidState_iff :
    wordStatus phase w = .invalidState ↔
      phase ≠ .active ∧ ((∃ len, decode w = .ok (.update len)) ∨ decode w = .ok .finalize) := by
  cases h : decode w with
  | error e => simp [wordStatus_of_error h]
  | ok i =>
    rw [wordStatus_of_ok h]
    cases i with
    | init nn kk => simp [commandStatus, ite_eq_iff]
    | update len => simp [commandStatus]
    | finalize => simp [commandStatus]

end Status

/-! ### What an answered transaction does -/

/-- The transaction of the waiting word `w` has led from `s` to `t` with the response `r`. -/
structure Answered (s : State) (w : CommandWord) (t : State) (r : Response) : Prop where
  responseOut : t.responseOut = s.responseOut ++ [r]
  commandIn : t.commandIn = s.commandIn.tail
  payloadIn : t.payloadIn = s.payloadIn.drop (payLen w)
  status : r.status = wordStatus s.hash.phase w
  rejected : r.status ≠ .ok → t.hash = s.hash ∧ r.digest = []
  accepted : r.status = .ok → t.hash.phase = phaseAfterOk w

section Step
variable {s t : State} {w : CommandWord} {rest : List CommandWord}

/-- Answering OK, with the payload consumed and the new context in the phase it is to be in. -/
theorem answered_respond_ok {n : Nat} {hs : HashState} (consumed : payLen w = n) (status : wordStatus s.hash.phase w = .ok)
    (phase : hs.phase = phaseAfterOk w) (digest : List Byte) :
    Answered s w (respond .ok digest { s.consumed n with hash := hs }) ⟨.ok, digest⟩ :=
  ⟨rfl, rfl, by rw [consumed]; rfl, status.symm, fun notOk => absurd rfl notOk, fun _ => phase⟩

/-- Rejecting, with the payload consumed: the context is left alone (R120). -/
theorem answered_reject {n : Nat} {st : Status} (consumed : payLen w = n) (status : wordStatus s.hash.phase w = st)
    (notOk : st ≠ .ok) : Answered s w (reject st (s.consumed n)) ⟨st, []⟩ :=
  ⟨rfl, rfl, by rw [consumed]; rfl, status.symm, fun _ => ⟨rfl, rfl⟩, fun ok => absurd ok notOk⟩

/-- A command with its payload there is answered. -/
theorem exists_answered_of_execMove {i : Instr} (good : decode w = .ok i) (there : payLen w ≤ s.payloadIn.length)
    (move : ExecMove s i t) : ∃ r, Answered s w t r := by
  have consumed := payLen_of_ok good
  have status := wordStatus_of_ok (phase := s.hash.phase) good
  cases move with
  | wait short => exact absurd (consumed ▸ there) (Nat.not_le_of_lt short)
  | initOk _ valid =>
    exact ⟨_, answered_respond_ok consumed (status.trans (if_pos valid)) (by simp [phaseAfterOk, good]) _⟩
  | initBad _ invalid =>
    exact ⟨_, answered_reject consumed (status.trans (if_neg (Bool.eq_false_iff.mp invalid))) (by decide)⟩
  | updateOk _ active =>
    exact ⟨_, answered_respond_ok consumed (status.trans (if_pos active)) (by simp [phaseAfterOk, good, active]) _⟩
  | updateBad _ inactive => exact ⟨_, answered_reject consumed (status.trans (if_neg inactive)) (by decide)⟩
  | finalizeOk active =>
    exact ⟨_, answered_respond_ok consumed (status.trans (if_pos active)) (by simp [phaseAfterOk, good]) _⟩
  | finalizeBad inactive => exact ⟨_, answered_reject consumed (status.trans (if_neg inactive)) (by decide)⟩

variable (waiting : s.commandIn = w :: rest) (hstep : step s = .next t)
include waiting hstep

/-- A word with its payload there is answered. -/
theorem exists_answered_of_step (there : payLen w ≤ s.payloadIn.length) : ∃ r, Answered s w t r := by
  cases h : decode w with
  | error e =>
    rw [step_of_fetch_illegal (fetch_illegal waiting h)] at hstep
    cases hstep
    exact ⟨_, answered_reject (payLen_of_error h) (wordStatus_of_error h) (by decide)⟩
  | ok i =>
    rw [stepRunsDecodedCommand s w rest i waiting h] at hstep
    exact exists_answered_of_execMove h there (execMove_of_exec hstep)

/-- A step that adds a response had the payload there, and that response is the answer. -/
theorem answered_of_response {r : Response} (response : t.responseOut = s.responseOut ++ [r]) : Answered s w t r := by
  rcases Nat.lt_or_ge s.payloadIn.length (payLen w) with short | there
  · rw [stepWaitsForWholePayload s w rest waiting short] at hstep
    cases hstep
    simp at response
  · obtain ⟨r', answered⟩ := exists_answered_of_step waiting hstep there
    have same : r = r' := by simpa [response] using answered.responseOut
    rwa [same]

end Step

/-- Settles O35: a response is the answer to the waiting word, and an answer other than OK is a rejection. -/
theorem rejectedCommandChangesNothing : Obligations.RejectedCommandChangesNothing := by
  intro s t w rest r waiting hstep response rejected
  have answered := answered_of_response waiting hstep response
  obtain ⟨sameHash, noDigest⟩ := answered.rejected rejected
  exact ⟨sameHash, answered.payloadIn, by rw [answered.commandIn, waiting, List.tail_cons], noDigest⟩

/-- Settles O37: the status of a response is `wordStatus`, which checks the operands of INIT. -/
theorem invalidParameterOnlyFromInit : Obligations.InvalidParameterOnlyFromInit := by
  intro s t w rest r waiting hstep response
  rw [(answered_of_response waiting hstep response).status]
  exact wordStatus_eq_invalidParameter_iff

/-- Settles O38: the status of a response is `wordStatus`, which checks the phase for UPDATE and FINALIZE. -/
theorem invalidStateOnlyOutsideActive : Obligations.InvalidStateOnlyOutsideActive := by
  intro s t w rest r waiting hstep response
  rw [(answered_of_response waiting hstep response).status]
  exact wordStatus_eq_invalidState_iff

/-! ### The status rests on no data byte -/

/-- Two machines whose payload bytes, chain values and buffers may be any: they agree on the command words, the phase and the
numbers of bytes waiting and absorbed (R119). -/
structure SameButBytes (s s' : State) : Prop where
  commandIn : s.commandIn = s'.commandIn
  payloadLength : s.payloadIn.length = s'.payloadIn.length
  phase : s.hash.phase = s'.hash.phase
  absorbed : s.hash.absorbed = s'.hash.absorbed

section Bytes
variable {s s' t t' : State} (same : SameButBytes s s')
include same

/-- They are refused alike: the refusal rests on nothing else (D14). -/
theorem SameButBytes.step_refused_iff (r : Refusal) : step s = .refused r ↔ step s' = .refused r := by
  rw [onlyOverlongComputationIsRefused s r, onlyOverlongComputationIsRefused s' r, same.commandIn, same.payloadLength,
    same.phase, same.absorbed]

/-- So they go on alike, as there is no fault. -/
theorem SameButBytes.exists_step_next (hstep : step s = .next t) : ∃ t', step s' = .next t' := by
  cases hstep' : step s' with
  | next t' => exact ⟨t', rfl⟩
  | fault f => nomatch f
  | refused r =>
    rw [(same.step_refused_iff r).mpr hstep'] at hstep
    cases hstep

/-- Answers to the same word have the same status and lead to the same phase. -/
theorem SameButBytes.answered_alike {w : CommandWord} {r r' : Response} (a : Answered s w t r)
    (a' : Answered s' w t' r') : r'.status = r.status ∧ t'.hash.phase = t.hash.phase := by
  have status : r'.status = r.status := by rw [a.status, a'.status, same.phase]
  refine ⟨status, ?_⟩
  by_cases ok : r.status = .ok
  · rw [a.accepted ok, a'.accepted (status.trans ok)]
  · rw [(a.rejected ok).1, (a'.rejected (status ▸ ok)).1, same.phase]

end Bytes

/-- Settles O39: both machines hold their state, for want of a word or of payload bytes, or both are answered. -/
theorem noDataByteCausesAnError : Obligations.NoDataByteCausesAnError := by
  intro s s' t hcmd hlen hphase habsorbed hstep
  have same : SameButBytes s s' := ⟨hcmd, hlen, hphase, habsorbed⟩
  obtain ⟨t', hstep'⟩ := same.exists_step_next hstep
  refine ⟨t', hstep', ?_⟩
  have held (h : step s = .next s) (h' : step s' = .next s') : t = s ∧ t' = s' := by
    rw [h] at hstep
    rw [h'] at hstep'
    cases hstep
    cases hstep'
    exact ⟨rfl, rfl⟩
  rcases waiting : s.commandIn with _ | ⟨w, rest⟩
  · obtain ⟨rfl, rfl⟩ := held (stepHoldsStateBetweenCommands s waiting)
      (stepHoldsStateBetweenCommands s' (hcmd ▸ waiting))
    exact ⟨hcmd.symm, hlen.symm, hphase.symm, by simp⟩
  rcases Nat.lt_or_ge s.payloadIn.length (payLen w) with short | there
  · obtain ⟨rfl, rfl⟩ := held (stepWaitsForWholePayload s w rest waiting short)
      (stepWaitsForWholePayload s' w rest (hcmd ▸ waiting) (hlen ▸ short))
    exact ⟨hcmd.symm, hlen.symm, hphase.symm, by simp⟩
  · obtain ⟨r, a⟩ := exists_answered_of_step waiting hstep there
    obtain ⟨r', a'⟩ := exists_answered_of_step (hcmd ▸ waiting) hstep' (hlen ▸ there)
    obtain ⟨status, phase⟩ := same.answered_alike a a'
    refine ⟨?_, ?_, phase, ?_⟩
    · rw [a.commandIn, a'.commandIn, hcmd]
    · rw [a.payloadIn, a'.payloadIn, List.length_drop, List.length_drop, hlen]
    · simp [a.responseOut, a'.responseOut, status]

end Sys2Proof.Machine
end
